-- ==== Sys2Proof/Word.lean ====
section
/-! DEFINITION. The machine's word types (00_scope.md R3, R5, R6).

The readings of R6 are core Lean's: `u(v)` is `BitVec.toNat v`, `s(v)` is `BitVec.toInt v` (two's complement),
`sext_16` is `BitVec.signExtend 16`, `zext_16` is `BitVec.setWidth 16`, and `trunc_16(n)` is `BitVec.ofInt 16 n`
(or `BitVec.ofNat 16 n` of a natural number). Bit 0 is the least significant bit, as in R5. -/

namespace Sys2Proof

/-- 16 bits: a register, an address, an instruction word (R3: `XLEN = ILEN = 16`). -/
abbrev Word := BitVec 16

/-- 8 bits: one memory cell (20_memory.md R30). -/
abbrev Byte := BitVec 8

/-- The number of a general register, 0..31 (R3: `NREGS = 32`; 10_state.md R10). -/
abbrev Reg := Fin 32

end Sys2Proof
end

