-- ==== Sys2Proof/Machine/Flags.lean ====
section
/-! DEFINITION. Every computation of the carry bit: add, addc, sub, subc (10_state.md R17; 42_arithmetic.md R122 to
R125). No other instruction writes it. -/

namespace Sys2Proof.Machine

/-- `u(a) + u(b) + C`, an integer (add has no carry input). -/
def sumOf (a b : Word) (carryIn : Bool) : Nat := a.toNat + b.toNat + carryIn.toNat

/-- `C` after add and addc: the unsigned carry out of bit 15. -/
def carryOf (sum : Nat) : Bool := decide (65536 ≤ sum)

/-- `u(a) - u(b) - C`, an integer (sub has no borrow input). -/
def diffOf (a b : Word) (borrowIn : Bool) : Int := (a.toNat : Int) - (b.toNat : Int) - (borrowIn.toNat : Int)

/-- `C` after sub and subc: the unsigned borrow. -/
def borrowOf (diff : Int) : Bool := decide (diff < 0)

end Sys2Proof.Machine
end

