-- ==== Sys2Proof/Config.lean ====
section
/-! DEFINITION. The configuration record `cfg` of 00_scope.md R4: the eight parameters the source leaves open.

Every parameter is plain data, so a state that carries the record can be compared and written out; how a parameter
is read is in Sys2Proof/Machine/Parameters.lean. The two function-valued parameters are held as finite data that can
express every function of the spec's type (Sys2Proof/Laws/Parameters.lean proves it). -/

namespace Sys2Proof

/-- `cfg.BYTE_ORDER` (20_memory.md R32): which byte of a 16-bit access lies at the lower address. -/
inductive ByteOrder where
  /-- The lower address holds bits 7:0. -/
  | little
  /-- The lower address holds bits 15:8. -/
  | big
  deriving DecidableEq, Repr

/-- `cfg.LDB_EXTEND` (46_load_store.md R171): how ldb widens a byte. -/
inductive Extend where
  | zero
  | sign
  deriving DecidableEq, Repr

/-- What lies at a byte address (`cfg.MEM_MAP`, 20_memory.md R41). -/
inductive Area where
  | ram
  | unmapped
  | device
  deriving DecidableEq, Repr

/-- A stretch of byte addresses `base .. base + size - 1`. -/
structure Span where
  base : Nat
  size : Nat
  deriving DecidableEq, Repr

/-- One entry of the memory map: a stretch and what lies there. -/
structure Region where
  span : Span
  area : Area
  deriving DecidableEq, Repr

/-- The base of an immediate branch's target. R115: "its base (the branch, the next instruction, or zero)". -/
inductive BranchBase where
  /-- The branch's own address. -/
  | branch
  /-- The address of the next instruction. -/
  | next
  /-- The immediate is the target itself. -/
  | zero
  deriving DecidableEq, Repr

/-- The unit of an immediate branch's offset. R115: "its unit (bytes or instructions)". -/
inductive BranchUnit where
  | byte
  | instruction
  deriving DecidableEq, Repr

/-- One argument pair of `cfg.BR_IMM_TARGET` whose target is given outright. -/
structure BranchException where
  pc : Word
  imm7 : BitVec 7
  target : Word
  deriving DecidableEq, Repr

/-- `cfg.BR_IMM_TARGET` (41_control_transfer.md R115) as data: signedness, unit and base, and a list of arguments
at which the function differs from that rule. -/
structure BranchRule where
  signed : Bool
  unit : BranchUnit
  base : BranchBase
  exceptions : List BranchException
  deriving DecidableEq, Repr

/-- The configuration record `cfg` (R4). It is a parameter of the step function and no step changes it. -/
structure Config where
  /-- `cfg.LINK_REG`: the register jmpl writes the return address to. -/
  linkReg : Reg
  /-- `cfg.BR_IMM_TARGET`: the target of a taken brezi or brnezi. -/
  brImm : BranchRule
  /-- `cfg.BYTE_ORDER`, of fetch and of ld, st alike. -/
  byteOrder : ByteOrder
  /-- `cfg.LDB_EXTEND`. -/
  ldbExtend : Extend
  /-- `cfg.NEG_FFFF`: the result of neg on 0xFFFF. -/
  negFFFF : Word
  /-- `cfg.RESET_PC`. -/
  resetPc : Word
  /-- `cfg.MEM_MAP`: the first region that holds an address says what lies there; elsewhere ram. -/
  memMap : List Region
  /-- `cfg.CODE`: `none` where the refusals of 20_memory.md R44 are not used, else the program image's addresses. -/
  code : Option (List Span)
  deriving DecidableEq, Repr

end Sys2Proof
end

