-- ==== Sys2Proof/Syntax.lean ====
section
/-! DEFINITION. The 39 instructions (00_scope.md R2), one constructor per row of spec/opcode_table.json.

Operands stand in the order of the assembler syntax (30_encoding.md R61, R62): the destination first; st and stb
have the address register first, the branches the tested register first. An immediate that is sign-extended, or that is
handed raw to `cfg.BR_IMM_TARGET`, is the encoded field; a shift distance and a bit position are numbers, whose
range WellFormed.lean checks. Ignored bits (R58) are no part of an instruction. -/

namespace Sys2Proof

/-- scb's selector, bit 9 of the word, `imm5[4]` (R53; 90_conflicts.md C4). -/
inductive BitOp where
  /-- `imm5[4] = 0`. -/
  | clear
  /-- `imm5[4] = 1`. -/
  | set
  deriving DecidableEq, Repr

/-- roti's direction, bit 9 of the word, `imm5[4]` (R53; R156). -/
inductive Direction where
  /-- `imm5[4] = 0`. -/
  | left
  /-- `imm5[4] = 1`. -/
  | right
  deriving DecidableEq, Repr

/-- The instructions of AUA. -/
inductive Instr where
  -- 40_load_immediate.md
  | ldi (d : Reg) (imm8 : BitVec 8)
  -- 41_control_transfer.md
  | jmpl (a : Reg)
  | brez (s a : Reg)
  | brnez (s a : Reg)
  | brezi (s : Reg) (imm7 : BitVec 7)
  | brnezi (s : Reg) (imm7 : BitVec 7)
  -- 42_arithmetic.md
  | addi (d : Reg) (imm7 : BitVec 7)
  | muli (d : Reg) (imm7 : BitVec 7)
  | add (d s : Reg)
  | addc (d s : Reg)
  | sub (d s : Reg)
  | subc (d s : Reg)
  | mul (d s : Reg)
  | mulu (d s : Reg)
  | mulh (d s : Reg)
  | mulhu (d s : Reg)
  -- 43_logic_negate.md
  | or (d s : Reg)
  | and (d s : Reg)
  | xor (d s : Reg)
  | not (d : Reg)
  | neg (d : Reg)
  -- 44_shift_bit.md
  | asr (d : Reg)
  | lsl (d : Reg)
  | lsr (d : Reg)
  | lsli (d : Reg) (distance : Nat)
  | lsri (d : Reg) (distance : Nat)
  | scb (d : Reg) (op : BitOp) (position : Nat)
  | roti (d : Reg) (dir : Direction) (distance : Nat)
  -- 45_compare_move.md
  | cmplt (d s : Reg)
  | cmpltu (d s : Reg)
  | cmplte (d s : Reg)
  | cmplteu (d s : Reg)
  | cmpe (d s : Reg)
  | cmpei (d : Reg) (imm5 : BitVec 5)
  | mov (d s : Reg)
  -- 46_load_store.md
  | ld (d a : Reg)
  | ldb (d a : Reg)
  | st (a s : Reg)
  | stb (a s : Reg)
  deriving DecidableEq, Repr

/-- The mnemonic, as spec/opcode_table.json spells it. -/
def Instr.mnemonic : Instr → String
  | .ldi _ _ => "ldi"
  | .jmpl _ => "jmpl"
  | .brez _ _ => "brez"
  | .brnez _ _ => "brnez"
  | .brezi _ _ => "brezi"
  | .brnezi _ _ => "brnezi"
  | .addi _ _ => "addi"
  | .muli _ _ => "muli"
  | .add _ _ => "add"
  | .addc _ _ => "addc"
  | .sub _ _ => "sub"
  | .subc _ _ => "subc"
  | .mul _ _ => "mul"
  | .mulu _ _ => "mulu"
  | .mulh _ _ => "mulh"
  | .mulhu _ _ => "mulhu"
  | .or _ _ => "or"
  | .and _ _ => "and"
  | .xor _ _ => "xor"
  | .not _ => "not"
  | .neg _ => "neg"
  | .asr _ => "asr"
  | .lsl _ => "lsl"
  | .lsr _ => "lsr"
  | .lsli _ _ => "lsli"
  | .lsri _ _ => "lsri"
  | .scb _ _ _ => "scb"
  | .roti _ _ _ => "roti"
  | .cmplt _ _ => "cmplt"
  | .cmpltu _ _ => "cmpltu"
  | .cmplte _ _ => "cmplte"
  | .cmplteu _ _ => "cmplteu"
  | .cmpe _ _ => "cmpe"
  | .cmpei _ _ => "cmpei"
  | .mov _ _ => "mov"
  | .ld _ _ => "ld"
  | .ldb _ _ => "ldb"
  | .st _ _ => "st"
  | .stb _ _ => "stb"

end Sys2Proof
end

