-- ==== Sys2Proof/Decode.lean ====
section
/-! DEFINITION. Byte order of an instruction word, the decoder, total on all words and all byte strings, and the
encoder (30_encoding.md R50 to R60; 20_memory.md R32, R43). -/

namespace Sys2Proof

/-! ### Byte order -/

/-- The 16-bit value of the byte at the lower and the byte at the higher address (20_memory.md R32, R33). -/
def ByteOrder.join : ByteOrder → Byte → Byte → Word
  | .little, lower, higher => higher ++ lower
  | .big, lower, higher => lower ++ higher

/-- The byte of a 16-bit value that lies at the lower address (R32, R34). -/
def ByteOrder.lower : ByteOrder → Word → Byte
  | .little, v => v.extractLsb' 0 8
  | .big, v => v.extractLsb' 8 8

/-- The byte of a 16-bit value that lies at the higher address (R32, R34). -/
def ByteOrder.higher : ByteOrder → Word → Byte
  | .little, v => v.extractLsb' 8 8
  | .big, v => v.extractLsb' 0 8

/-! ### Fields (R51, R52) -/

/-- The register a 5-bit field names (10_state.md R10). -/
def regOfBits (b : BitVec 5) : Reg := b.toFin

/-- The 5-bit field that names a register. -/
def regBits (r : Reg) : BitVec 5 := BitVec.ofFin r

/-- `instr[15:10]`, which selects the instruction (R54, R56). -/
def op6 (w : Word) : BitVec 6 := w.extractLsb' 10 6

/-- The register field in bits 4:0 (`d`, or `s` in formats BR, BI and ST). -/
def regLow (w : Word) : Reg := regOfBits (w.extractLsb' 0 5)

/-- The register field in bits 9:5 (`s` in format RR, `a`). -/
def regHigh (w : Word) : Reg := regOfBits (w.extractLsb' 5 5)

/-- `imm8`, bits 12:5. -/
def imm8Of (w : Word) : BitVec 8 := w.extractLsb' 5 8

/-- `imm7`, bits 11:5. -/
def imm7Of (w : Word) : BitVec 7 := w.extractLsb' 5 7

/-- `imm5`, bits 9:5. -/
def imm5Of (w : Word) : BitVec 5 := w.extractLsb' 5 5

/-- `imm4`, bits 8:5, unsigned: a distance or a bit position. -/
def imm4Of (w : Word) : Nat := (w.extractLsb' 5 4).toNat

/-- scb's selector in bit 9: 1 sets, 0 clears (90_conflicts.md C4). -/
def bitOpOf (w : Word) : BitOp := if w.getLsbD 9 then .set else .clear

/-- roti's direction in bit 9: 1 is right, 0 is left. -/
def directionOf (w : Word) : Direction := if w.getLsbD 9 then .right else .left

/-! ### Decoder -/

/-- Why bytes are no instruction. -/
inductive DecodeError where
  /-- `instr[15:10]` is one of the six unassigned values (R59). -/
  | unassignedOpcode (instr : Word)
  /-- Fewer than the two bytes of an instruction (R50). -/
  | truncated
  deriving DecidableEq, Repr

/-- The instruction of a word: the row of R57 that `op6` selects; ignored bits take no part (R56, R58). -/
def decode (w : Word) : Except DecodeError Instr :=
  match (op6 w).toNat with
  | 0x00 | 0x01 | 0x02 | 0x03 | 0x04 | 0x05 | 0x06 | 0x07 => .ok (.ldi (regLow w) (imm8Of w))
  | 0x0D => .ok (.jmpl (regHigh w))
  | 0x0E => .ok (.brez (regLow w) (regHigh w))
  | 0x0F => .ok (.brnez (regLow w) (regHigh w))
  | 0x10 | 0x11 | 0x12 | 0x13 => .ok (.brezi (regLow w) (imm7Of w))
  | 0x14 | 0x15 | 0x16 | 0x17 => .ok (.brnezi (regLow w) (imm7Of w))
  | 0x18 | 0x19 | 0x1A | 0x1B => .ok (.addi (regLow w) (imm7Of w))
  | 0x1C | 0x1D | 0x1E | 0x1F => .ok (.muli (regLow w) (imm7Of w))
  | 0x20 => .ok (.add (regLow w) (regHigh w))
  | 0x21 => .ok (.addc (regLow w) (regHigh w))
  | 0x22 => .ok (.sub (regLow w) (regHigh w))
  | 0x23 => .ok (.subc (regLow w) (regHigh w))
  | 0x24 => .ok (.mul (regLow w) (regHigh w))
  | 0x25 => .ok (.mulu (regLow w) (regHigh w))
  | 0x26 => .ok (.mulh (regLow w) (regHigh w))
  | 0x27 => .ok (.mulhu (regLow w) (regHigh w))
  | 0x28 => .ok (.or (regLow w) (regHigh w))
  | 0x29 => .ok (.and (regLow w) (regHigh w))
  | 0x2A => .ok (.xor (regLow w) (regHigh w))
  | 0x2B => .ok (.not (regLow w))
  | 0x2C => .ok (.neg (regLow w))
  | 0x2D => .ok (.asr (regLow w))
  | 0x2E => .ok (.lsl (regLow w))
  | 0x2F => .ok (.lsr (regLow w))
  | 0x30 => .ok (.lsli (regLow w) (imm4Of w))
  | 0x31 => .ok (.lsri (regLow w) (imm4Of w))
  | 0x32 => .ok (.scb (regLow w) (bitOpOf w) (imm4Of w))
  | 0x33 => .ok (.roti (regLow w) (directionOf w) (imm4Of w))
  | 0x35 => .ok (.cmplt (regLow w) (regHigh w))
  | 0x36 => .ok (.cmpltu (regLow w) (regHigh w))
  | 0x37 => .ok (.cmplte (regLow w) (regHigh w))
  | 0x38 => .ok (.cmplteu (regLow w) (regHigh w))
  | 0x39 => .ok (.cmpe (regLow w) (regHigh w))
  | 0x3A => .ok (.cmpei (regLow w) (imm5Of w))
  | 0x3B => .ok (.mov (regLow w) (regHigh w))
  | 0x3C => .ok (.ld (regLow w) (regHigh w))
  | 0x3D => .ok (.ldb (regLow w) (regHigh w))
  | 0x3E => .ok (.st (regHigh w) (regLow w))
  | 0x3F => .ok (.stb (regHigh w) (regLow w))
  | _ => .error (.unassignedOpcode w)

/-- The instruction at the head of a byte string, and the bytes after it. -/
def decodeBytes (order : ByteOrder) : List Byte → Except DecodeError (Instr × List Byte)
  | lower :: higher :: rest =>
    match decode (order.join lower higher) with
    | .ok i => .ok (i, rest)
    | .error e => .error e
  | _ => .error .truncated

/-! ### Encoder -/

/-- The word of an instruction, ignored bits 0 (R57, R58). -/
def encode : Instr → Word
  | .ldi d imm8 => 0b000#3 ++ imm8 ++ regBits d
  | .jmpl a => 0b001101#6 ++ regBits a ++ 0b00000#5
  | .brez s a => 0b001110#6 ++ regBits a ++ regBits s
  | .brnez s a => 0b001111#6 ++ regBits a ++ regBits s
  | .brezi s imm7 => 0b0100#4 ++ imm7 ++ regBits s
  | .brnezi s imm7 => 0b0101#4 ++ imm7 ++ regBits s
  | .addi d imm7 => 0b0110#4 ++ imm7 ++ regBits d
  | .muli d imm7 => 0b0111#4 ++ imm7 ++ regBits d
  | .add d s => 0b100000#6 ++ regBits s ++ regBits d
  | .addc d s => 0b100001#6 ++ regBits s ++ regBits d
  | .sub d s => 0b100010#6 ++ regBits s ++ regBits d
  | .subc d s => 0b100011#6 ++ regBits s ++ regBits d
  | .mul d s => 0b100100#6 ++ regBits s ++ regBits d
  | .mulu d s => 0b100101#6 ++ regBits s ++ regBits d
  | .mulh d s => 0b100110#6 ++ regBits s ++ regBits d
  | .mulhu d s => 0b100111#6 ++ regBits s ++ regBits d
  | .or d s => 0b101000#6 ++ regBits s ++ regBits d
  | .and d s => 0b101001#6 ++ regBits s ++ regBits d
  | .xor d s => 0b101010#6 ++ regBits s ++ regBits d
  | .not d => 0b101011#6 ++ 0b00000#5 ++ regBits d
  | .neg d => 0b101100#6 ++ 0b00000#5 ++ regBits d
  | .asr d => 0b101101#6 ++ 0b00000#5 ++ regBits d
  | .lsl d => 0b101110#6 ++ 0b00000#5 ++ regBits d
  | .lsr d => 0b101111#6 ++ 0b00000#5 ++ regBits d
  | .lsli d distance => 0b110000#6 ++ 0b0#1 ++ BitVec.ofNat 4 distance ++ regBits d
  | .lsri d distance => 0b110001#6 ++ 0b0#1 ++ BitVec.ofNat 4 distance ++ regBits d
  | .scb d .clear position => 0b110010#6 ++ 0b0#1 ++ BitVec.ofNat 4 position ++ regBits d
  | .scb d .set position => 0b110010#6 ++ 0b1#1 ++ BitVec.ofNat 4 position ++ regBits d
  | .roti d .left distance => 0b110011#6 ++ 0b0#1 ++ BitVec.ofNat 4 distance ++ regBits d
  | .roti d .right distance => 0b110011#6 ++ 0b1#1 ++ BitVec.ofNat 4 distance ++ regBits d
  | .cmplt d s => 0b110101#6 ++ regBits s ++ regBits d
  | .cmpltu d s => 0b110110#6 ++ regBits s ++ regBits d
  | .cmplte d s => 0b110111#6 ++ regBits s ++ regBits d
  | .cmplteu d s => 0b111000#6 ++ regBits s ++ regBits d
  | .cmpe d s => 0b111001#6 ++ regBits s ++ regBits d
  | .cmpei d imm5 => 0b111010#6 ++ imm5 ++ regBits d
  | .mov d s => 0b111011#6 ++ regBits s ++ regBits d
  | .ld d a => 0b111100#6 ++ regBits a ++ regBits d
  | .ldb d a => 0b111101#6 ++ regBits a ++ regBits d
  | .st a s => 0b111110#6 ++ regBits a ++ regBits s
  | .stb a s => 0b111111#6 ++ regBits a ++ regBits s

/-- The bytes of an instruction, the lower address first. -/
def encodeBytes (order : ByteOrder) (i : Instr) : List Byte := [order.lower (encode i), order.higher (encode i)]

/-- The instruction the decoder reads from the `nbits` bits `w` of an opcode-table row, laid out in memory in the
reference byte order (the answer is the same under the other order). -/
def decodeTableWord (nbits w : Nat) : Option Instr :=
  let v : Word := BitVec.ofNat 16 (w % 2 ^ nbits)
  match decodeBytes .little [ByteOrder.lower .little v, ByteOrder.higher .little v] with
  | .ok (i, _) => some i
  | .error _ => none

/-! ### The opcode table and the ignored bits -/

/-- A row of the table of R57: `instr & mask = pattern` selects it (the table's column `match` is `pattern`). -/
structure OpcodeRow where
  mnemonic : String
  pattern : Word
  mask : Word
  deriving DecidableEq, Repr

/-- The word is of the row's instruction (R57). -/
def OpcodeRow.selects (r : OpcodeRow) (w : Word) : Bool := w &&& r.mask == r.pattern

/-- The table of R57, in the order of spec/opcode_table.json. -/
def opcodeTable : List OpcodeRow :=
  [⟨"ldi", 0x0000#16, 0xE000#16⟩,
   ⟨"jmpl", 0x3400#16, 0xFC00#16⟩,
   ⟨"brez", 0x3800#16, 0xFC00#16⟩,
   ⟨"brnez", 0x3C00#16, 0xFC00#16⟩,
   ⟨"brezi", 0x4000#16, 0xF000#16⟩,
   ⟨"brnezi", 0x5000#16, 0xF000#16⟩,
   ⟨"addi", 0x6000#16, 0xF000#16⟩,
   ⟨"muli", 0x7000#16, 0xF000#16⟩,
   ⟨"add", 0x8000#16, 0xFC00#16⟩,
   ⟨"addc", 0x8400#16, 0xFC00#16⟩,
   ⟨"sub", 0x8800#16, 0xFC00#16⟩,
   ⟨"subc", 0x8C00#16, 0xFC00#16⟩,
   ⟨"mul", 0x9000#16, 0xFC00#16⟩,
   ⟨"mulu", 0x9400#16, 0xFC00#16⟩,
   ⟨"mulh", 0x9800#16, 0xFC00#16⟩,
   ⟨"mulhu", 0x9C00#16, 0xFC00#16⟩,
   ⟨"or", 0xA000#16, 0xFC00#16⟩,
   ⟨"and", 0xA400#16, 0xFC00#16⟩,
   ⟨"xor", 0xA800#16, 0xFC00#16⟩,
   ⟨"not", 0xAC00#16, 0xFC00#16⟩] ++
  [⟨"neg", 0xB000#16, 0xFC00#16⟩,
   ⟨"asr", 0xB400#16, 0xFC00#16⟩,
   ⟨"lsl", 0xB800#16, 0xFC00#16⟩,
   ⟨"lsr", 0xBC00#16, 0xFC00#16⟩,
   ⟨"lsli", 0xC000#16, 0xFC00#16⟩,
   ⟨"lsri", 0xC400#16, 0xFC00#16⟩,
   ⟨"scb", 0xC800#16, 0xFC00#16⟩,
   ⟨"roti", 0xCC00#16, 0xFC00#16⟩,
   ⟨"cmplt", 0xD400#16, 0xFC00#16⟩,
   ⟨"cmpltu", 0xD800#16, 0xFC00#16⟩,
   ⟨"cmplte", 0xDC00#16, 0xFC00#16⟩,
   ⟨"cmplteu", 0xE000#16, 0xFC00#16⟩,
   ⟨"cmpe", 0xE400#16, 0xFC00#16⟩,
   ⟨"cmpei", 0xE800#16, 0xFC00#16⟩,
   ⟨"mov", 0xEC00#16, 0xFC00#16⟩,
   ⟨"ld", 0xF000#16, 0xFC00#16⟩,
   ⟨"ldb", 0xF400#16, 0xFC00#16⟩,
   ⟨"st", 0xF800#16, 0xFC00#16⟩,
   ⟨"stb", 0xFC00#16, 0xFC00#16⟩]

/-- The bits of an instruction's word that take no part in decoding (R52, R58). -/
def Instr.ignoredBits : Instr → Word
  | .jmpl _ => 0x001F#16
  | .not _ | .neg _ | .asr _ | .lsl _ | .lsr _ => 0x03E0#16
  | .lsli _ _ | .lsri _ _ => 0x0200#16
  | .ldi _ _ | .brez _ _ | .brnez _ _ | .brezi _ _ | .brnezi _ _ => 0
  | .addi _ _ | .muli _ _ | .add _ _ | .addc _ _ | .sub _ _ | .subc _ _ => 0
  | .mul _ _ | .mulu _ _ | .mulh _ _ | .mulhu _ _ | .or _ _ | .and _ _ | .xor _ _ => 0
  | .scb _ _ _ | .roti _ _ _ | .cmplt _ _ | .cmpltu _ _ | .cmplte _ _ | .cmplteu _ _ => 0
  | .cmpe _ _ | .cmpei _ _ | .mov _ _ | .ld _ _ | .ldb _ _ | .st _ _ | .stb _ _ => 0

end Sys2Proof
end

