-- ==== Sys2Proof/Machine/Operands.lean ====
section
/-! DEFINITION. The operand forms: how an immediate, a byte and a truth value become 16 bits (30_encoding.md R53;
46_load_store.md R171; 45_compare_move.md). The register form is `State.reg` of Ops.lean. -/

namespace Sys2Proof.Machine

/-- The signed 8-bit immediate of ldi (R100). -/
def operandImm8 (imm8 : BitVec 8) : Word := imm8.signExtend 16

/-- The signed 7-bit immediate of addi and muli (R120, R121). -/
def operandImm7 (imm7 : BitVec 7) : Word := imm7.signExtend 16

/-- The signed 5-bit immediate of cmpei (R165). -/
def operandImm5 (imm5 : BitVec 5) : Word := imm5.signExtend 16

/-- A loaded byte, widened as `cfg.LDB_EXTEND` says (R171). -/
def widenByte : Extend → Byte → Word
  | .zero, b => b.setWidth 16
  | .sign, b => b.signExtend 16

/-- The byte of a register that stb stores: bits 7:0 (R173). -/
def lowByte (v : Word) : Byte := v.extractLsb' 0 8

/-- A comparison's result: 1 if true, 0 if false (R160 to R165). -/
def truthWord (b : Bool) : Word := if b then 0x0001#16 else 0x0000#16

end Sys2Proof.Machine
end

