-- ==== Sys2Proof/Machine/Memory.lean ====
section
/-! DEFINITION. Memory: 65536 byte cells (20_memory.md R30), kept as the list of the cells that hold a value.

The list is in one canonical form (`Memory.wf`): addresses strictly rising and below 65536. A cell that is not listed
has no value, the option of 10_state.md R23 (log 6), so a write always lists its cell. -/

namespace Sys2Proof.Machine

/-- The cells that hold a value, by rising address. -/
abbrev Memory := List Host.Cell

/-- What a cell reads as that nothing has written (log 6): no value. -/
def Memory.unlisted : Option Byte := none

/-- The content of a cell. -/
def Memory.read : Memory → Nat → Option Byte
  | [], _ => Memory.unlisted
  | (k, v) :: rest, a => if k = a then some v else Memory.read rest a

/-- Memory with one cell changed, in canonical form again. -/
def Memory.write : Memory → Nat → Byte → Memory
  | [], a, b => [(a, b)]
  | (k, v) :: rest, a, b =>
    if a < k then (a, b) :: (k, v) :: rest
    else if a = k then (a, b) :: rest
    else (k, v) :: Memory.write rest a b

/-- The canonical form: strictly rising addresses, all in the address space. -/
abbrev Memory.wf (m : Memory) : Prop :=
  m.Pairwise (fun x y => x.1 < y.1) ∧ ∀ x ∈ m, x.1 < 65536

end Sys2Proof.Machine
end

