-- ==== Sys2Proof/Machine/Parameters.lean ====
section
/-! DEFINITION. How the parameters of `cfg` are read, and the reference configuration (00_scope.md R4).

The reference values are the spec's own choice and no statement about the chip: a claim that must hold on the chip
quantifies over the configuration a state carries. -/

namespace Sys2Proof

/-- The address lies in the stretch. -/
def Span.holds (r : Span) (a : Word) : Bool := decide (r.base ≤ a.toNat ∧ a.toNat < r.base + r.size)

/-- `cfg.MEM_MAP(a)`: the area of the first region that holds the address, else ram (20_memory.md R41). -/
def areaIn : List Region → Word → Area
  | [], _ => .ram
  | r :: rest, a => if r.span.holds a then r.area else areaIn rest a

/-- `cfg.MEM_MAP` (R41). -/
def Config.area (cfg : Config) (a : Word) : Area := areaIn cfg.memMap a

/-- The address is a byte of the program image that the refusals of 20_memory.md R44 protect. -/
def Config.inCode (cfg : Config) (a : Word) : Bool := (cfg.code.getD []).any (fun r => r.holds a)

/-- A fetch may read the byte: the refusals are not used, or the byte is in `cfg.CODE` (R44). -/
def Config.mayFetch (cfg : Config) (a : Word) : Bool := cfg.code.isNone || cfg.inCode a

/-- The base address of an immediate branch at `pc`. -/
def BranchBase.address : BranchBase → Word → Word
  | .branch, pc => pc
  | .next, pc => pc + 2#16
  | .zero, _ => 0#16

/-- The number of bytes in one unit of a branch offset. -/
def BranchUnit.bytes : BranchUnit → Word
  | .byte => 1#16
  | .instruction => 2#16

/-- The target by the rule alone: base plus the extended immediate, in bytes, modulo 65536. -/
def BranchRule.computed (r : BranchRule) (pc : Word) (imm7 : BitVec 7) : Word :=
  r.base.address pc + r.unit.bytes * (if r.signed then imm7.signExtend 16 else imm7.setWidth 16)

/-- The target given outright for the argument pair, if any. -/
def exceptionAt : List BranchException → Word → BitVec 7 → Option Word
  | [], _, _ => none
  | e :: rest, pc, imm7 => if e.pc = pc ∧ e.imm7 = imm7 then some e.target else exceptionAt rest pc imm7

/-- `cfg.BR_IMM_TARGET(pc, imm7)` (41_control_transfer.md R115). -/
def Config.brImmTarget (cfg : Config) (pc : Word) (imm7 : BitVec 7) : Word :=
  (exceptionAt cfg.brImm.exceptions pc imm7).getD (cfg.brImm.computed pc imm7)

/-- R115's reference instantiation: `(pc + 2 * sext_16(imm7)) mod 65536`. -/
def BranchRule.reference : BranchRule :=
  { signed := true, unit := .instruction, base := .branch, exceptions := [] }

/-- The reference configuration of R4. DESIGN CHOICE (log 3): the refusals of 20_memory.md R44 are not used. -/
def Config.reference : Config :=
  { linkReg := 31
    brImm := BranchRule.reference
    byteOrder := .little
    ldbExtend := .zero
    negFFFF := 0xFFFF#16
    resetPc := 0x0000#16
    memMap := []
    code := none }

/-- What a register holds after reset. DESIGN CHOICE (log 4): 10_state.md R21 leaves it unspecified. -/
def resetRegister : Word := 0#16

/-- The carry bit after reset. DESIGN CHOICE (log 5): 10_state.md R22 leaves it unspecified. -/
def resetCarry : Bool := false

end Sys2Proof
end

