-- ==== Sys2Proof/Machine/State.lean ====
section
/-! DEFINITION. The machine's state (10_state.md section 1), the reasons a step can stop (60_exceptions.md R201), and
the state after reset (10_state.md R20 to R23; 70_reset_and_hazards.md R220). -/

namespace Sys2Proof.Machine

/-- The model-level faults of R201. None is an architectural event: the source gives the situation no meaning, the
model makes no claim about what the chip does there, and every one of them is SAFE (the model stops where the chip
may go on). A fault is precise (R204): the state is the one before the step. -/
inductive Fault where
  /-- `pc[0] = 1` when an instruction is to be fetched (R37). Raised by the fetch. -/
  | misalignedFetch (pc : Word)
  /-- A byte of the instruction lies outside `cfg.CODE`, with the refusals of R44 in use. Raised by the fetch. -/
  | fetchOutsideCode (pc : Word)
  /-- `instr[15:10]` is unassigned (R59); the word and the `pc`. Raised after the fetch. -/
  | illegalInstruction (instr pc : Word)
  /-- ld or st with an odd effective address (R36). -/
  | misalignedAccess (addr : Word)
  /-- ld, ldb, st or stb touches `cfg.CODE`, with the refusals of R44 in use; the effective address. -/
  | codeRegionAccess (addr : Word)
  /-- A fetch or data access touches a byte that `cfg.MEM_MAP` marks `unmapped` (R41). -/
  | unmappedAccess (addr : Word)
  /-- A fetch or data access touches a byte that `cfg.MEM_MAP` marks `device` (R40, R41). -/
  | unmodelledDevice (addr : Word)
  /-- A fetch, ld or ldb reads a memory byte that nothing has written (R23). Registers and `C` hold values, and
  reading one is never this fault (log 7). -/
  | uninitialisedRead (addr : Word)
  deriving DecidableEq, Repr

/-- The reasons there is no meaning. -/
inductive Refusal where
  /-- The instruction has no meaning in the model yet. Raised by `exec`'s arm alone; SAFE. No arm raises it. -/
  | notModelled (mnemonic : String)
  deriving DecidableEq, Repr

/-- The state of the machine. -/
structure State where
  /-- The configuration record, the step function's parameter (00_scope.md R4). No step changes it (log 1). -/
  cfg : Config
  /-- `x[0]` .. `x[31]` (R10). -/
  regs : Vector Word 32
  /-- The byte address of the instruction being executed (R13). -/
  pc : Word
  /-- The carry bit `C` (R16). -/
  c : Bool
  /-- `mem` (20_memory.md R30). -/
  mem : Memory
  deriving DecidableEq, Repr

/-- The state after reset under a configuration: `pc = cfg.RESET_PC` (R20), no cell of memory written (R23), and the
named values in the registers (log 4) and the carry (log 5). -/
def State.resetFor (cfg : Config) : State :=
  { cfg := cfg
    regs := Vector.replicate 32 resetRegister
    pc := cfg.resetPc
    c := resetCarry
    mem := [] }

/-- The state after reset under the reference configuration. -/
def State.reset : State := State.resetFor Config.reference

end Sys2Proof.Machine
end

