-- ==== Sys2Proof/Machine/Ops.lean ====
section
/-! DEFINITION. The named operations over registers and memory that every meaning is written with (00_scope.md R7;
20_memory.md R33, R34, R41, R44; 60_exceptions.md R203). -/

namespace Sys2Proof.Machine

/-- The outcomes of an instruction. -/
abbrev Result := Host.Outcome State Fault Refusal

/-! ### Registers, carry, program counter -/

/-- `x[r]`. All 32 registers behave alike (10_state.md R11). -/
def State.reg (s : State) (r : Reg) : Word := s.regs[r]

/-- `x[r] <- v`. -/
def State.setReg (s : State) (r : Reg) (v : Word) : State := { s with regs := s.regs.set r v }

/-- `C <- b`. -/
def State.setCarry (s : State) (b : Bool) : State := { s with c := b }

/-- `pc <- target`; the target is not checked when it is written (10_state.md R15). -/
def State.setPc (s : State) (target : Word) : State := { s with pc := target }

/-- The address of the next instruction in memory, `(pc + 2) mod 65536` (R15). -/
def State.nextPc (s : State) : Word := s.pc + 2#16

/-- `pc <- (pc + 2) mod 65536`, the advance of every instruction that does not transfer control (R15). -/
def State.advance (s : State) : State := s.setPc s.nextPc

/-- The end of an instruction that writes one register (R12, R15). -/
def writeBack (d : Reg) (v : Word) (s : State) : Result := .next (s.setReg d v).advance

/-- The end of an instruction that writes one register and the carry (R12, R15, R17). -/
def writeBackCarry (d : Reg) (v : Word) (c : Bool) (s : State) : Result := .next ((s.setReg d v).setCarry c).advance

/-- A branch: to the target when taken, else to the next instruction (41_control_transfer.md R111 to R114, R116). -/
def branchIf (taken : Bool) (target : Word) (s : State) : Result :=
  .next (if taken then s.setPc target else s.advance)

/-! ### Checks of a memory access -/

/-- The content of a byte cell, if it holds one (R30). -/
def State.byteAt? (s : State) (a : Word) : Option Byte := Memory.read s.mem a.toNat

/-- `check(addr)` (R41). -/
def areaFault (s : State) (a : Word) : Option Fault :=
  match s.cfg.area a with
  | .ram => none
  | .unmapped => some (.unmappedAccess a)
  | .device => some (.unmodelledDevice a)

/-- A 2-byte data access needs an even address (R36). -/
def alignmentFault (ea : Word) : Option Fault := if ea.getLsbD 0 then some (.misalignedAccess ea) else none

/-- A data access any byte of which lies in `cfg.CODE` (R44; DEDUCED, log 8: the address recorded is the effective
address). -/
def codeFault (s : State) (ea : Word) (bytes : List Word) : Option Fault :=
  if bytes.any s.cfg.inCode then some (.codeRegionAccess ea) else none

/-- The first fault of a list of checks made in order (R203). -/
def firstFault : List (Option Fault) → Option Fault
  | [] => none
  | some f :: _ => some f
  | none :: rest => firstFault rest

/-- A computation behind checks made in order. -/
def afterChecks {α : Type} (checks : List (Option Fault)) (k : Except Fault α) : Except Fault α :=
  match firstFault checks with
  | some f => .error f
  | none => k

/-! ### Reading memory -/

/-- A byte's content; a byte nothing has written is a fault (10_state.md R23). -/
def cellAt (s : State) (a : Word) : Except Fault Byte :=
  match s.byteAt? a with
  | some b => .ok b
  | none => .error (.uninitialisedRead a)

/-- `MemRead(a, 1)` (R33). -/
def memRead1 (s : State) (a : Word) : Except Fault Byte := afterChecks [areaFault s a] (cellAt s a)

/-- `MemRead(a, 2)` (R33) of an address whose alignment the caller has checked: both bytes are checked, then the byte
at the lower address is read first, and they are joined in the order `cfg.BYTE_ORDER`. -/
def memRead2 (s : State) (a : Word) : Except Fault Word :=
  afterChecks [areaFault s a, areaFault s (a + 1#16)]
    (match cellAt s a, cellAt s (a + 1#16) with
     | .ok lower, .ok higher => .ok (s.cfg.byteOrder.join lower higher)
     | .error f, _ => .error f
     | .ok _, .error f => .error f)

/-- The read of ld: R203's checks 5, 6, 7. -/
def loadWord (s : State) (ea : Word) : Except Fault Word :=
  afterChecks [alignmentFault ea, codeFault s ea [ea, ea + 1#16]] (memRead2 s ea)

/-- The read of ldb: R203's checks 6, 7. -/
def loadByte (s : State) (ea : Word) : Except Fault Byte := afterChecks [codeFault s ea [ea]] (memRead1 s ea)

/-! ### Writing memory -/

/-- `mem[a] <- b`. -/
def State.setByte (s : State) (a : Word) (b : Byte) : State := { s with mem := Memory.write s.mem a.toNat b }

/-- `MemWrite(ea, 2, v)` (R34) behind R203's checks 5, 6; both bytes change together, in the order
`cfg.BYTE_ORDER`. -/
def storeWord (s : State) (ea v : Word) : Except Fault State :=
  afterChecks [alignmentFault ea, codeFault s ea [ea, ea + 1#16], areaFault s ea, areaFault s (ea + 1#16)]
    (.ok ((s.setByte ea (s.cfg.byteOrder.lower v)).setByte (ea + 1#16) (s.cfg.byteOrder.higher v)))

/-- `MemWrite(ea, 1, b)` (R34) behind R203's check 6. -/
def storeByte (s : State) (ea : Word) (b : Byte) : Except Fault State :=
  afterChecks [codeFault s ea [ea], areaFault s ea] (.ok (s.setByte ea b))

/-- The end of a load: on a fault no register is written (R204). -/
def finishLoad (d : Reg) (loaded : Except Fault Word) (s : State) : Result :=
  match loaded with
  | .ok v => writeBack d v s
  | .error f => .fault f

/-- The end of a store: on a fault memory is unchanged (R204). -/
def finishStore (stored : Except Fault State) : Result :=
  match stored with
  | .ok t => .next t.advance
  | .error f => .fault f

end Sys2Proof.Machine
end

