-- ==== Sys2Proof/Machine/Arithmetic.lean ====
section
/-! DEFINITION. Integer arithmetic: addi, muli, add, addc, sub, subc, mul, mulu, mulh, mulhu (42_arithmetic.md).
Results are truncated to 16 bits, silently (R130). -/

namespace Sys2Proof.Machine

/-- `s(a) * s(b)` as a 32-bit two's-complement product (R126, R128). -/
def signedProduct (a b : Word) : BitVec 32 := BitVec.ofInt 32 (a.toInt * b.toInt)

/-- `u(a) * u(b)` as a 32-bit product (R127, R129). -/
def unsignedProduct (a b : Word) : BitVec 32 := BitVec.ofNat 32 (a.toNat * b.toNat)

/-- Bits 15:0 of a product. -/
def lowWord (p : BitVec 32) : Word := p.extractLsb' 0 16

/-- Bits 31:16 of a product. -/
def highWord (p : BitVec 32) : Word := p.extractLsb' 16 16

/-- addi (R120): the carry is not written. -/
def execAddi (d : Reg) (imm7 : BitVec 7) (s : State) : Result := writeBack d (s.reg d + operandImm7 imm7) s

/-- muli (R121): the low word of the product. -/
def execMuli (d : Reg) (imm7 : BitVec 7) (s : State) : Result :=
  writeBack d (lowWord (signedProduct (s.reg d) (operandImm7 imm7))) s

/-- The shared end of add and addc. -/
def addWith (carryIn : Bool) (d r : Reg) (s : State) : Result :=
  let sum := sumOf (s.reg d) (s.reg r) carryIn
  writeBackCarry d (BitVec.ofNat 16 sum) (carryOf sum) s

/-- The shared end of sub and subc. -/
def subWith (borrowIn : Bool) (d r : Reg) (s : State) : Result :=
  let diff := diffOf (s.reg d) (s.reg r) borrowIn
  writeBackCarry d (BitVec.ofInt 16 diff) (borrowOf diff) s

/-- add (R122): `C` is no input. -/
def execAdd (d r : Reg) (s : State) : Result := addWith false d r s

/-- addc (R123). -/
def execAddc (d r : Reg) (s : State) : Result := addWith s.c d r s

/-- sub (R124): `C` is no input. -/
def execSub (d r : Reg) (s : State) : Result := subWith false d r s

/-- subc (R125). -/
def execSubc (d r : Reg) (s : State) : Result := subWith s.c d r s

/-- mul (R126). -/
def execMul (d r : Reg) (s : State) : Result := writeBack d (lowWord (signedProduct (s.reg d) (s.reg r))) s

/-- mulu (R127). -/
def execMulu (d r : Reg) (s : State) : Result := writeBack d (lowWord (unsignedProduct (s.reg d) (s.reg r))) s

/-- mulh (R128). -/
def execMulh (d r : Reg) (s : State) : Result := writeBack d (highWord (signedProduct (s.reg d) (s.reg r))) s

/-- mulhu (R129). -/
def execMulhu (d r : Reg) (s : State) : Result := writeBack d (highWord (unsignedProduct (s.reg d) (s.reg r))) s

end Sys2Proof.Machine
end

