-- ==== Sys2Proof/Machine/Compare.lean ====
section
/-! DEFINITION. Comparisons and register move: cmplt, cmpltu, cmplte, cmplteu, cmpe, cmpei, mov (45_compare_move.md).
A comparison writes 1 or 0 to Rd and sets no flag. -/

namespace Sys2Proof.Machine

/-- cmplt (R160). -/
def execCmplt (d r : Reg) (s : State) : Result := writeBack d (truthWord ((s.reg d).slt (s.reg r))) s

/-- cmpltu (R161). -/
def execCmpltu (d r : Reg) (s : State) : Result := writeBack d (truthWord ((s.reg d).ult (s.reg r))) s

/-- cmplte (R162). -/
def execCmplte (d r : Reg) (s : State) : Result := writeBack d (truthWord ((s.reg d).sle (s.reg r))) s

/-- cmplteu (R163). -/
def execCmplteu (d r : Reg) (s : State) : Result := writeBack d (truthWord ((s.reg d).ule (s.reg r))) s

/-- cmpe (R164). -/
def execCmpe (d r : Reg) (s : State) : Result := writeBack d (truthWord (s.reg d == s.reg r)) s

/-- cmpei (R165). -/
def execCmpei (d : Reg) (imm5 : BitVec 5) (s : State) : Result :=
  writeBack d (truthWord (s.reg d == operandImm5 imm5)) s

/-- mov (R166). -/
def execMov (d r : Reg) (s : State) : Result := writeBack d (s.reg r) s

end Sys2Proof.Machine
end

