-- ==== Sys2Proof/Machine/Control.lean ====
section
/-! DEFINITION. Control transfer: jmpl, brez, brnez, brezi, brnezi (41_control_transfer.md). There is no delay slot
(R116). -/

namespace Sys2Proof.Machine

/-- jmpl (R110): the target is read before the link register is written. -/
def execJmpl (a : Reg) (s : State) : Result := .next ((s.setReg s.cfg.linkReg s.nextPc).setPc (s.reg a))

/-- brez (R111). -/
def execBrez (tested a : Reg) (s : State) : Result := branchIf (s.reg tested == 0#16) (s.reg a) s

/-- brnez (R112). -/
def execBrnez (tested a : Reg) (s : State) : Result := branchIf (s.reg tested != 0#16) (s.reg a) s

/-- brezi (R113). -/
def execBrezi (tested : Reg) (imm7 : BitVec 7) (s : State) : Result :=
  branchIf (s.reg tested == 0#16) (s.cfg.brImmTarget s.pc imm7) s

/-- brnezi (R114). -/
def execBrnezi (tested : Reg) (imm7 : BitVec 7) (s : State) : Result :=
  branchIf (s.reg tested != 0#16) (s.cfg.brImmTarget s.pc imm7) s

end Sys2Proof.Machine
end

