-- ==== Sys2Proof/Machine/LoadImmediate.lean ====
section
/-! DEFINITION. Load immediate: ldi (40_load_immediate.md). -/

namespace Sys2Proof.Machine

/-- ldi (R100): the whole register is written with the sign-extended immediate. -/
def execLdi (d : Reg) (imm8 : BitVec 8) (s : State) : Result := writeBack d (operandImm8 imm8) s

end Sys2Proof.Machine
end

