-- ==== Sys2Proof/Machine/LoadStore.lean ====
section
/-! DEFINITION. Loads and stores: ld, ldb, st, stb (46_load_store.md). One addressing mode: the effective address is
the content of `x[a]` (R174). -/

namespace Sys2Proof.Machine

/-- ld (R170). -/
def execLd (d a : Reg) (s : State) : Result := finishLoad d (loadWord s (s.reg a)) s

/-- ldb (R171). -/
def execLdb (d a : Reg) (s : State) : Result :=
  finishLoad d ((loadByte s (s.reg a)).map (widenByte s.cfg.ldbExtend)) s

/-- st (R172). -/
def execSt (a r : Reg) (s : State) : Result := finishStore (storeWord s (s.reg a) (s.reg r))

/-- stb (R173). -/
def execStb (a r : Reg) (s : State) : Result := finishStore (storeByte s (s.reg a) (lowByte (s.reg r)))

end Sys2Proof.Machine
end

