-- ==== Sys2Proof/Machine/Logic.lean ====
section
/-! DEFINITION. Bitwise logic and negation: or, and, xor, not, neg (43_logic_negate.md). -/

namespace Sys2Proof.Machine

/-- or (R140). -/
def execOr (d r : Reg) (s : State) : Result := writeBack d (s.reg d ||| s.reg r) s

/-- and (R141). -/
def execAnd (d r : Reg) (s : State) : Result := writeBack d (s.reg d &&& s.reg r) s

/-- xor (R142). -/
def execXor (d r : Reg) (s : State) : Result := writeBack d (s.reg d ^^^ s.reg r) s

/-- not (R143). -/
def execNot (d : Reg) (s : State) : Result := writeBack d (~~~ s.reg d) s

/-- The two's complement, but for the operand 0xFFFF, whose result is `cfg.NEG_FFFF` (R144; 90_conflicts.md C1). -/
def negated (negFFFF v : Word) : Word := if v = 0xFFFF#16 then negFFFF else BitVec.ofNat 16 (65536 - v.toNat)

/-- neg (R144). -/
def execNeg (d : Reg) (s : State) : Result := writeBack d (negated s.cfg.negFFFF (s.reg d)) s

end Sys2Proof.Machine
end

