-- ==== Sys2Proof/Machine/Shift.lean ====
section
/-! DEFINITION. Shifts, bit set/clear, rotate: asr, lsl, lsr, lsli, lsri, scb, roti (44_shift_bit.md). A bit that is
shifted out is lost: none reaches the carry. -/

namespace Sys2Proof.Machine

/-- asr (R150): one place, the MSB is held. -/
def execAsr (d : Reg) (s : State) : Result := writeBack d ((s.reg d).sshiftRight 1) s

/-- lsl (R151): one place. -/
def execLsl (d : Reg) (s : State) : Result := writeBack d (s.reg d <<< 1) s

/-- lsr (R152): one place. -/
def execLsr (d : Reg) (s : State) : Result := writeBack d (s.reg d >>> 1) s

/-- lsli (R153). -/
def execLsli (d : Reg) (distance : Nat) (s : State) : Result := writeBack d (s.reg d <<< distance) s

/-- lsri (R154). -/
def execLsri (d : Reg) (distance : Nat) (s : State) : Result := writeBack d (s.reg d >>> distance) s

/-- A value with one bit set or cleared (R155). -/
def withBit (op : BitOp) (position : Nat) (v : Word) : Word :=
  match op with
  | .set => v ||| (1#16 <<< position)
  | .clear => v &&& ~~~(1#16 <<< position)

/-- scb (R155). -/
def execScb (d : Reg) (op : BitOp) (position : Nat) (s : State) : Result :=
  writeBack d (withBit op position (s.reg d)) s

/-- A value rotated by a distance (R156). -/
def rotated (dir : Direction) (distance : Nat) (v : Word) : Word :=
  match dir with
  | .left => v.rotateLeft distance
  | .right => v.rotateRight distance

/-- roti (R156). -/
def execRoti (d : Reg) (dir : Direction) (distance : Nat) (s : State) : Result :=
  writeBack d (rotated dir distance (s.reg d)) s

end Sys2Proof.Machine
end

