-- ==== Sys2Proof/Machine/Dispatch.lean ====
section
/-! DEFINITION. The dispatch: one arm per instruction, each a direct call of its meaning. -/

namespace Sys2Proof.Machine

/-- The effect of an instruction on a state. -/
def exec (i : Instr) (s : State) : Host.Outcome State Fault Refusal :=
  match i with
  | .ldi d imm8 => Sys2Proof.Machine.execLdi d imm8 s
  | .jmpl a => Sys2Proof.Machine.execJmpl a s
  | .brez r a => Sys2Proof.Machine.execBrez r a s
  | .brnez r a => Sys2Proof.Machine.execBrnez r a s
  | .brezi r imm7 => Sys2Proof.Machine.execBrezi r imm7 s
  | .brnezi r imm7 => Sys2Proof.Machine.execBrnezi r imm7 s
  | .addi d imm7 => Sys2Proof.Machine.execAddi d imm7 s
  | .muli d imm7 => Sys2Proof.Machine.execMuli d imm7 s
  | .add d r => Sys2Proof.Machine.execAdd d r s
  | .addc d r => Sys2Proof.Machine.execAddc d r s
  | .sub d r => Sys2Proof.Machine.execSub d r s
  | .subc d r => Sys2Proof.Machine.execSubc d r s
  | .mul d r => Sys2Proof.Machine.execMul d r s
  | .mulu d r => Sys2Proof.Machine.execMulu d r s
  | .mulh d r => Sys2Proof.Machine.execMulh d r s
  | .mulhu d r => Sys2Proof.Machine.execMulhu d r s
  | .or d r => Sys2Proof.Machine.execOr d r s
  | .and d r => Sys2Proof.Machine.execAnd d r s
  | .xor d r => Sys2Proof.Machine.execXor d r s
  | .not d => Sys2Proof.Machine.execNot d s
  | .neg d => Sys2Proof.Machine.execNeg d s
  | .asr d => Sys2Proof.Machine.execAsr d s
  | .lsl d => Sys2Proof.Machine.execLsl d s
  | .lsr d => Sys2Proof.Machine.execLsr d s
  | .lsli d n => Sys2Proof.Machine.execLsli d n s
  | .lsri d n => Sys2Proof.Machine.execLsri d n s
  | .scb d op n => Sys2Proof.Machine.execScb d op n s
  | .roti d dir n => Sys2Proof.Machine.execRoti d dir n s
  | .cmplt d r => Sys2Proof.Machine.execCmplt d r s
  | .cmpltu d r => Sys2Proof.Machine.execCmpltu d r s
  | .cmplte d r => Sys2Proof.Machine.execCmplte d r s
  | .cmplteu d r => Sys2Proof.Machine.execCmplteu d r s
  | .cmpe d r => Sys2Proof.Machine.execCmpe d r s
  | .cmpei d imm5 => Sys2Proof.Machine.execCmpei d imm5 s
  | .mov d r => Sys2Proof.Machine.execMov d r s
  | .ld d a => Sys2Proof.Machine.execLd d a s
  | .ldb d a => Sys2Proof.Machine.execLdb d a s
  | .st a r => Sys2Proof.Machine.execSt a r s
  | .stb a r => Sys2Proof.Machine.execStb a r s

end Sys2Proof.Machine
end

