-- ==== Sys2Proof/Machine/Fetch.lean ====
section
/-! DEFINITION. Fetching an instruction (10_state.md R14; 20_memory.md R37, R43, R44; 60_exceptions.md R203, checks 1
to 3), and placing one where it is fetched. -/

namespace Sys2Proof.Machine

/-- A fetch needs an even `pc` (R37). -/
def fetchAlignmentFault (s : State) : Option Fault :=
  if s.pc.getLsbD 0 then some (.misalignedFetch s.pc) else none

/-- A fetch any byte of which lies outside `cfg.CODE`, with the refusals in use (R44). -/
def fetchCodeFault (s : State) : Option Fault :=
  if s.cfg.mayFetch s.pc && s.cfg.mayFetch (s.pc + 1#16) then none else some (.fetchOutsideCode s.pc)

/-- The two instruction bytes at an address, joined in the byte order of a data access (R43). The lower byte's area and
content are checked before the higher byte's: check 2 of R203 names area and UninitialisedRead together, lower address
first, where checks 6 and 7 part them for data (log 8). -/
def fetchBytes (s : State) (a : Word) : Except Fault Word :=
  match memRead1 s a with
  | .error f => .error f
  | .ok lower => (memRead1 s (a + 1#16)).map (s.cfg.byteOrder.join lower)

/-- The instruction word at `pc` (R14). -/
def fetchWord (s : State) : Except Fault Word :=
  afterChecks [fetchAlignmentFault s, fetchCodeFault s] (fetchBytes s s.pc)

/-- The instruction at `pc`; an unassigned opcode is a fault (30_encoding.md R59). -/
def fetchInstr (s : State) : Except Fault Instr :=
  match fetchWord s with
  | .error f => .error f
  | .ok w =>
    match decode w with
    | .ok i => .ok i
    | .error _ => .error (.illegalInstruction w s.pc)

/-- The even address at or below an address. -/
def evenAddress (a : Word) : Word := a &&& 0xFFFE#16

/-- `cfg` with ram at the two bytes at `a`, and with both in `cfg.CODE` where the refusals are used. -/
def fetchableAt (cfg : Config) (a : Word) : Config :=
  { cfg with
    memMap :=
      if cfg.area a = .ram ∧ cfg.area (a + 1#16) = .ram then cfg.memMap
      else { span := { base := a.toNat, size := 2 }, area := .ram } :: cfg.memMap
    code :=
      if cfg.mayFetch a ∧ cfg.mayFetch (a + 1#16) then cfg.code
      else cfg.code.map (fun spans => { base := a.toNat, size := 2 } :: spans) }

/-- The state with a word stored where the next instruction is fetched, and all that the fetch needs: an even `pc`,
ram there, and both bytes in `cfg.CODE` where the refusals are used (log 15). -/
def placeWord (s : State) (w : Word) : State :=
  let a := evenAddress s.pc
  let t : State := { s with cfg := fetchableAt s.cfg a, pc := a }
  (t.setByte a (t.cfg.byteOrder.lower w)).setByte (a + 1#16) (t.cfg.byteOrder.higher w)

end Sys2Proof.Machine
end

