-- ==== Sys2Proof/Machine/Step.lean ====
section
/-! DEFINITION. One step of the machine (10_state.md R14). -/

namespace Sys2Proof.Machine

/-- Fetch the instruction at `pc` and execute it; a meaning writes `pc` itself (R15). Nothing happens between two
steps (R14, 60_exceptions.md R202). -/
def step (s : State) : Host.Outcome State Fault Refusal :=
  match fetchInstr s with
  | .ok i => exec i s
  | .error f => .fault f

/-- `s` with the instruction word of an opcode-table row (its low `nbits` bits) stored where `step` fetches its next
instruction, and all that the fetch needs (`placeWord`; log 15). -/
def State.withFetchWord (s : State) (nbits w : Nat) : State := placeWord s (BitVec.ofNat 16 (w % 2 ^ nbits))

end Sys2Proof.Machine
end

