-- ==== Sys2Proof/WellFormed.lean ====
section
/-! DEFINITION. What makes an instruction and a configuration well formed.

Register numbers and encoded immediates are bounded by their types (30_encoding.md R60: every value is legal). -/

namespace Sys2Proof

/-- The operand ranges of 30_encoding.md R53: lsli and lsri take a distance 0..15 (the source's "Immediate can be
in range 0 <= imm <16"), scb a bit position 0..15, roti a distance 0..15. -/
def Instr.wf : Instr → Bool
  | .lsli _ distance => decide (distance < 16)
  | .lsri _ distance => decide (distance < 16)
  | .scb _ _ position => decide (position < 16)
  | .roti _ _ distance => decide (distance < 16)
  | .ldi _ _ => true
  | .jmpl _ => true
  | .brez _ _ => true
  | .brnez _ _ => true
  | .brezi _ _ => true
  | .brnezi _ _ => true
  | .addi _ _ => true
  | .muli _ _ => true
  | .add _ _ => true
  | .addc _ _ => true
  | .sub _ _ => true
  | .subc _ _ => true
  | .mul _ _ => true
  | .mulu _ _ => true
  | .mulh _ _ => true
  | .mulhu _ _ => true
  | .or _ _ => true
  | .and _ _ => true
  | .xor _ _ => true
  | .not _ => true
  | .neg _ => true
  | .asr _ => true
  | .lsl _ => true
  | .lsr _ => true
  | .cmplt _ _ => true
  | .cmpltu _ _ => true
  | .cmplte _ _ => true
  | .cmplteu _ _ => true
  | .cmpe _ _ => true
  | .cmpei _ _ => true
  | .mov _ _ => true
  | .ld _ _ => true
  | .ldb _ _ => true
  | .st _ _ => true
  | .stb _ _ => true

/-- A stretch lies in the 65536 bytes of the address space (20_memory.md R30). -/
def Span.wf (r : Span) : Bool := decide (r.base + r.size ≤ 65536)

/-- `cfg.RESET_PC` is even (10_state.md R20), and the memory map and the code region lie in the address space. -/
def Config.wf (cfg : Config) : Bool :=
  !cfg.resetPc.getLsbD 0 && cfg.memMap.all (fun r => r.span.wf) && (cfg.code.getD []).all Span.wf

end Sys2Proof
end

