-- ==== Sys2Proof/Safety.lean ====
section
/-! DEFINITION. What the claims are stated in: well-formed states, safe and final runs, frames, and the spec's
summary tables of what an instruction reads and writes (10_state.md R12, R17; 20_memory.md R31). -/

namespace Sys2Proof.Machine

/-! ### States and runs -/

/-- A state with a well-formed configuration and memory in canonical form. -/
def State.wf (s : State) : Prop := s.cfg.wf = true ∧ Memory.wf s.mem

/-- A state the spec admits after reset: `pc` is `cfg.RESET_PC` and nothing is said of registers and carry
(10_state.md R20 to R23; memory holds whatever the precondition places there). -/
def State.afterReset (s : State) : Prop := s.cfg.wf = true ∧ s.pc = s.cfg.resetPc

/-- The step takes the state to another. -/
def StepsTo (s t : State) : Prop := step s = .next t

/-- The states reached in any number of steps, none of which stops. -/
inductive Reaches (s : State) : State → Prop where
  | refl : Reaches s s
  | tail {t u : State} : Reaches s t → StepsTo t u → Reaches s u

/-- A safe run: every state reached takes a step, so no model-level fault is met (60_exceptions.md R201). -/
def Safe (s : State) : Prop := ∀ t, Reaches s t → ∃ u, StepsTo t u

/-- A final state: not faulted, and the step leaves it as it is (70_reset_and_hazards.md R228). -/
def Final (s : State) : Prop := StepsTo s s

/-- The instruction that the next step executes. -/
def Fetches (s : State) (i : Instr) : Prop := fetchInstr s = .ok i

/-- The next step is a branch to itself that is taken, or a jump to itself whose link the link register already holds
(R228). -/
def SelfLoop (s : State) : Prop :=
  (∃ r imm7, Fetches s (.brezi r imm7) ∧ s.reg r = 0#16 ∧ s.cfg.brImmTarget s.pc imm7 = s.pc) ∨
  (∃ r imm7, Fetches s (.brnezi r imm7) ∧ s.reg r ≠ 0#16 ∧ s.cfg.brImmTarget s.pc imm7 = s.pc) ∨
  (∃ r a, Fetches s (.brez r a) ∧ s.reg r = 0#16 ∧ s.reg a = s.pc) ∨
  (∃ r a, Fetches s (.brnez r a) ∧ s.reg r ≠ 0#16 ∧ s.reg a = s.pc) ∨
  (∃ a, Fetches s (.jmpl a) ∧ s.reg a = s.pc ∧ s.reg s.cfg.linkReg = s.pc + 2#16)

/-! ### Frames -/

/-- Every register outside the list is unchanged. -/
def RegsKept (s t : State) (except : List Reg) : Prop := ∀ r, r ∉ except → t.reg r = s.reg r

/-- Every byte of memory outside the list reads as before. -/
def BytesKept (s t : State) (except : List Word) : Prop := ∀ a, a ∉ except → t.byteAt? a = s.byteAt? a

/-- What an instruction that writes one register, and neither carry nor memory, leaves unchanged, and its advance of
`pc` (R15). -/
def OnlyWrites (s t : State) (d : Reg) : Prop :=
  RegsKept s t [d] ∧ t.c = s.c ∧ t.pc = s.pc + 2#16 ∧ BytesKept s t [] ∧ t.cfg = s.cfg

/-- The same for one that writes the carry as well. -/
def OnlyWritesAndCarry (s t : State) (d : Reg) : Prop :=
  RegsKept s t [d] ∧ t.pc = s.pc + 2#16 ∧ BytesKept s t [] ∧ t.cfg = s.cfg

/-- What an instruction that writes only `pc` leaves unchanged. -/
def OnlyTransfers (s t : State) : Prop :=
  RegsKept s t [] ∧ t.c = s.c ∧ BytesKept s t [] ∧ t.cfg = s.cfg

/-- What a store to the listed bytes leaves unchanged, and its advance of `pc`. -/
def OnlyStores (s t : State) (stored : List Word) : Prop :=
  RegsKept s t [] ∧ t.c = s.c ∧ t.pc = s.pc + 2#16 ∧ BytesKept s t stored ∧ t.cfg = s.cfg

/-! ### Conditions of a memory access -/

/-- A byte a data access may touch: ram, and not code that the refusals protect (R41, R44). -/
def DataByte (s : State) (a : Word) : Prop := s.cfg.area a = .ram ∧ s.cfg.inCode a = false

/-- An even address: what a 2-byte access needs (R36, R37). -/
def EvenAddr (a : Word) : Prop := a.getLsbD 0 = false

/-! ### What an instruction reads and writes -/

/-- The table of R12, "registers written". -/
def regsWritten (cfg : Config) : Instr → List Reg
  | .jmpl _ => [cfg.linkReg]
  | .brez _ _ | .brnez _ _ | .brezi _ _ | .brnezi _ _ | .st _ _ | .stb _ _ => []
  | .ldi d _ | .addi d _ | .muli d _ | .lsli d _ | .lsri d _ | .scb d _ _ | .roti d _ _ | .cmpei d _ => [d]
  | .add d _ | .addc d _ | .sub d _ | .subc d _ | .mul d _ | .mulu d _ | .mulh d _ | .mulhu d _ => [d]
  | .or d _ | .and d _ | .xor d _ | .cmplt d _ | .cmpltu d _ | .cmplte d _ | .cmplteu d _ | .cmpe d _ => [d]
  | .not d | .neg d | .asr d | .lsl d | .lsr d | .mov d _ | .ld d _ | .ldb d _ => [d]

/-- The table of R12, "registers read": brez and brnez read `x[a]` when the branch is taken. -/
def regsRead (s : State) : Instr → List Reg
  | .ldi _ _ => []
  | .jmpl a => [a]
  | .brez r a => if s.reg r = 0#16 then [r, a] else [r]
  | .brnez r a => if s.reg r = 0#16 then [r] else [r, a]
  | .brezi r _ | .brnezi r _ => [r]
  | .addi d _ | .muli d _ | .lsli d _ | .lsri d _ | .scb d _ _ | .roti d _ _ | .cmpei d _ => [d]
  | .add d r | .addc d r | .sub d r | .subc d r | .mul d r | .mulu d r | .mulh d r | .mulhu d r => [d, r]
  | .or d r | .and d r | .xor d r | .cmplt d r | .cmpltu d r | .cmplte d r | .cmplteu d r | .cmpe d r => [d, r]
  | .not d | .neg d | .asr d | .lsl d | .lsr d => [d]
  | .mov _ r => [r]
  | .ld _ a | .ldb _ a => [a]
  | .st a r | .stb a r => [a, r]

/-- The table of R17, "reads `C`". -/
def readsCarry : Instr → Bool
  | .addc _ _ | .subc _ _ => true
  | .ldi _ _ | .jmpl _ | .brez _ _ | .brnez _ _ | .brezi _ _ | .brnezi _ _ => false
  | .addi _ _ | .muli _ _ | .add _ _ | .sub _ _ | .mul _ _ | .mulu _ _ | .mulh _ _ | .mulhu _ _ => false
  | .or _ _ | .and _ _ | .xor _ _ | .not _ | .neg _ | .asr _ | .lsl _ | .lsr _ => false
  | .lsli _ _ | .lsri _ _ | .scb _ _ _ | .roti _ _ _ => false
  | .cmplt _ _ | .cmpltu _ _ | .cmplte _ _ | .cmplteu _ _ | .cmpe _ _ | .cmpei _ _ | .mov _ _ => false
  | .ld _ _ | .ldb _ _ | .st _ _ | .stb _ _ => false

/-- The table of R17, "writes `C`". -/
def writesCarry : Instr → Bool
  | .add _ _ | .addc _ _ | .sub _ _ | .subc _ _ => true
  | .ldi _ _ | .jmpl _ | .brez _ _ | .brnez _ _ | .brezi _ _ | .brnezi _ _ => false
  | .addi _ _ | .muli _ _ | .mul _ _ | .mulu _ _ | .mulh _ _ | .mulhu _ _ => false
  | .or _ _ | .and _ _ | .xor _ _ | .not _ | .neg _ | .asr _ | .lsl _ | .lsr _ => false
  | .lsli _ _ | .lsri _ _ | .scb _ _ _ | .roti _ _ _ => false
  | .cmplt _ _ | .cmpltu _ _ | .cmplte _ _ | .cmplteu _ _ | .cmpe _ _ | .cmpei _ _ | .mov _ _ => false
  | .ld _ _ | .ldb _ _ | .st _ _ | .stb _ _ => false

/-- The bytes an instruction reads from memory (20_memory.md R31, R35). -/
def bytesRead (s : State) : Instr → List Word
  | .ld _ a => [s.reg a, s.reg a + 1#16]
  | .ldb _ a => [s.reg a]
  | .st _ _ | .stb _ _ => []
  | .ldi _ _ | .jmpl _ | .brez _ _ | .brnez _ _ | .brezi _ _ | .brnezi _ _ => []
  | .addi _ _ | .muli _ _ | .add _ _ | .addc _ _ | .sub _ _ | .subc _ _ => []
  | .mul _ _ | .mulu _ _ | .mulh _ _ | .mulhu _ _ => []
  | .or _ _ | .and _ _ | .xor _ _ | .not _ | .neg _ | .asr _ | .lsl _ | .lsr _ => []
  | .lsli _ _ | .lsri _ _ | .scb _ _ _ | .roti _ _ _ => []
  | .cmplt _ _ | .cmpltu _ _ | .cmplte _ _ | .cmplteu _ _ | .cmpe _ _ | .cmpei _ _ | .mov _ _ => []

/-- The bytes an instruction writes to memory (R31, R35). -/
def bytesWritten (s : State) : Instr → List Word
  | .st a _ => [s.reg a, s.reg a + 1#16]
  | .stb a _ => [s.reg a]
  | .ld _ _ | .ldb _ _ => []
  | .ldi _ _ | .jmpl _ | .brez _ _ | .brnez _ _ | .brezi _ _ | .brnezi _ _ => []
  | .addi _ _ | .muli _ _ | .add _ _ | .addc _ _ | .sub _ _ | .subc _ _ => []
  | .mul _ _ | .mulu _ _ | .mulh _ _ | .mulhu _ _ => []
  | .or _ _ | .and _ _ | .xor _ _ | .not _ | .neg _ | .asr _ | .lsl _ | .lsr _ => []
  | .lsli _ _ | .lsri _ _ | .scb _ _ _ | .roti _ _ _ => []
  | .cmplt _ _ | .cmpltu _ _ | .cmplte _ _ | .cmplteu _ _ | .cmpe _ _ | .cmpei _ _ | .mov _ _ => []

/-- The instruction writes `pc` with a target: jmpl, or a branch that is taken (10_state.md R15). -/
def transfersControl (s : State) : Instr → Bool
  | .jmpl _ => true
  | .brez r _ | .brezi r _ => decide (s.reg r = 0#16)
  | .brnez r _ | .brnezi r _ => decide (s.reg r ≠ 0#16)
  | .ldi _ _ | .addi _ _ | .muli _ _ | .add _ _ | .addc _ _ | .sub _ _ | .subc _ _ => false
  | .mul _ _ | .mulu _ _ | .mulh _ _ | .mulhu _ _ => false
  | .or _ _ | .and _ _ | .xor _ _ | .not _ | .neg _ | .asr _ | .lsl _ | .lsr _ => false
  | .lsli _ _ | .lsri _ _ | .scb _ _ _ | .roti _ _ _ => false
  | .cmplt _ _ | .cmpltu _ _ | .cmplte _ _ | .cmplteu _ _ | .cmpe _ _ | .cmpei _ _ | .mov _ _ => false
  | .ld _ _ | .ldb _ _ | .st _ _ | .stb _ _ => false

end Sys2Proof.Machine
end

