-- ==== Sys2Proof/Certificates/Slice0/Obligations.lean ====
section
/-! DEFINITION. The statements for the provers, from the numbered rules of the spec. Each quantifies over every
state, and so over every configuration a state carries and every content of registers, carry and memory.

A word of R57's pattern `100000sssssddddd` is written `0b100000#6 ++ s ++ d`. -/

open Sys2Proof Sys2Proof.Machine

/-! ### Encoding (30_encoding.md) -/

/-- R53, R56, R57: no operand bit is dropped by the encoding, in either byte order (R43). -/
def Obligations.DecodeOfEncodeIsTheInstruction : Prop :=
  ∀ i : Instr, i.wf = true →
    decode (encode i) = .ok i ∧
    ∀ (order : ByteOrder) (rest : List Byte), decodeBytes order (encodeBytes order i ++ rest) = .ok (i, rest)

/-- R58, R60: the decoder drops the ignored bits and nothing else, and every operand it reads is legal. -/
def Obligations.EncodeOfDecodeClearsIgnoredBits : Prop :=
  ∀ (w : Word) (i : Instr), decode w = .ok i → i.wf = true ∧ encode i = w &&& ~~~ i.ignoredBits

/-- R57, on all 65536 words and all 39 rows. -/
def Obligations.DecodeAgreesWithOpcodeTable : Prop :=
  opcodeTable.length = 39 ∧
  ∀ (w : Word), ∀ row ∈ opcodeTable,
    row.selects w = true ↔ ∃ i, decode w = .ok i ∧ i.mnemonic = row.mnemonic

/-- R59. -/
def Obligations.UnassignedOpcodesAreIllegal : Prop :=
  (∀ w : Word, (∃ e, decode w = .error e) ↔
      (0x2000 ≤ w.toNat ∧ w.toNat ≤ 0x33FF) ∨ (0xD000 ≤ w.toNat ∧ w.toNat ≤ 0xD3FF)) ∧
  (∀ w : Word, (∃ e, decode w = .error e) ↔
      (0x08 ≤ (op6 w).toNat ∧ (op6 w).toNat ≤ 0x0C) ∨ (op6 w).toNat = 0x34) ∧
  (∀ (s : State) (w : Word) (e : DecodeError), fetchWord s = .ok w → decode w = .error e →
      step s = .fault (.illegalInstruction w s.pc))

/-- R58; the assembler writes the ignored bits as 0; the last clause says that no other bit can change without changing
the instruction. -/
def Obligations.IgnoredBitsHaveNoEffect : Prop :=
  (∀ a x : BitVec 5, decode (0b001101#6 ++ a ++ x) = .ok (.jmpl (regOfBits a))) ∧
  (∀ x d : BitVec 5, decode (0b101011#6 ++ x ++ d) = .ok (.not (regOfBits d))) ∧
  (∀ x d : BitVec 5, decode (0b101100#6 ++ x ++ d) = .ok (.neg (regOfBits d))) ∧
  (∀ x d : BitVec 5, decode (0b101101#6 ++ x ++ d) = .ok (.asr (regOfBits d))) ∧
  (∀ x d : BitVec 5, decode (0b101110#6 ++ x ++ d) = .ok (.lsl (regOfBits d))) ∧
  (∀ x d : BitVec 5, decode (0b101111#6 ++ x ++ d) = .ok (.lsr (regOfBits d))) ∧
  (∀ (x : BitVec 1) (n : BitVec 4) (d : BitVec 5),
      decode (0b110000#6 ++ x ++ n ++ d) = .ok (.lsli (regOfBits d) n.toNat)) ∧
  (∀ (x : BitVec 1) (n : BitVec 4) (d : BitVec 5),
      decode (0b110001#6 ++ x ++ n ++ d) = .ok (.lsri (regOfBits d) n.toNat)) ∧
  (∀ i : Instr, encode i &&& i.ignoredBits = 0#16) ∧
  (∀ (w m : Word) (i : Instr), decode w = .ok i → m &&& i.ignoredBits = m → decode (w ^^^ m) = .ok i) ∧
  (∀ (w m : Word) (i : Instr), decode w = .ok i → decode (w ^^^ m) = .ok i → m &&& i.ignoredBits = m)

/-- A sanity check of the field positions on words of 95_test_vectors.md section 2. -/
def Obligations.SampleWordsDecode : Prop :=
  decode 0x1555#16 = .ok (.ldi 21 0xAA#8) ∧
  decode 0x3540#16 = .ok (.jmpl 10) ∧
  decode 0x5AAA#16 = .ok (.brnezi 10 0x55#7) ∧
  decode 0x7AAA#16 = .ok (.muli 10 0x55#7) ∧
  decode 0x8EAA#16 = .ok (.subc 10 21) ∧
  decode 0xA6AA#16 = .ok (.and 10 21) ∧
  decode 0xCAAA#16 = .ok (.scb 10 .set 5) ∧
  decode 0xCD55#16 = .ok (.roti 21 .left 10) ∧
  decode 0xEAAA#16 = .ok (.cmpei 10 0x15#5) ∧
  decode 0xF955#16 = .ok (.st 10 21) ∧
  decode 0xC301#16 = .ok (.lsli 1 8) ∧
  decode 0x33FF#16 = .error (.unassignedOpcode 0x33FF#16) ∧
  ByteOrder.join .little 0xCD#8 0xAB#8 = 0xABCD#16

/-! ### The step (10_state.md, 20_memory.md, 60_exceptions.md) -/

/-- R14, R43: fetch, decode, execute; nothing is added around exec, which writes `pc` itself. -/
def Obligations.StepExecutesTheDecodedInstruction : Prop :=
  ∀ (s : State) (lower higher : Byte) (i : Instr),
    EvenAddr s.pc →
    s.cfg.mayFetch s.pc = true → s.cfg.mayFetch (s.pc + 1#16) = true →
    s.cfg.area s.pc = .ram → s.cfg.area (s.pc + 1#16) = .ram →
    s.byteAt? s.pc = some lower → s.byteAt? (s.pc + 1#16) = some higher →
    decode (match s.cfg.byteOrder with
      | .little => higher ++ lower
      | .big => lower ++ higher) = .ok i →
    step s = exec i s

/-- R203 checks 1 and 2: area and content of the lower byte, then of the higher byte. That a byte nothing has written
stops the fetch is the model's choice of R23's two options (log 6); that check 2 takes the bytes one after the other,
where `MemRead` of R33 checks both areas first, is DEDUCED (log 8). -/
def Obligations.FetchFaultsInOrder : Prop :=
  ∀ s : State,
    (¬ EvenAddr s.pc → step s = .fault (.misalignedFetch s.pc)) ∧
    (EvenAddr s.pc → (s.cfg.mayFetch s.pc = false ∨ s.cfg.mayFetch (s.pc + 1#16) = false) →
      step s = .fault (.fetchOutsideCode s.pc)) ∧
    (EvenAddr s.pc → s.cfg.mayFetch s.pc = true → s.cfg.mayFetch (s.pc + 1#16) = true →
      (s.cfg.area s.pc = .unmapped → step s = .fault (.unmappedAccess s.pc)) ∧
      (s.cfg.area s.pc = .device → step s = .fault (.unmodelledDevice s.pc)) ∧
      (s.cfg.area s.pc = .ram → s.byteAt? s.pc = none → step s = .fault (.uninitialisedRead s.pc)) ∧
      (s.cfg.area s.pc = .ram → (s.byteAt? s.pc).isSome = true →
        (s.cfg.area (s.pc + 1#16) = .unmapped → step s = .fault (.unmappedAccess (s.pc + 1#16))) ∧
        (s.cfg.area (s.pc + 1#16) = .device → step s = .fault (.unmodelledDevice (s.pc + 1#16))) ∧
        (s.cfg.area (s.pc + 1#16) = .ram → s.byteAt? (s.pc + 1#16) = none →
          step s = .fault (.uninitialisedRead (s.pc + 1#16)))))

/-- R37. -/
def Obligations.OddPcFaultsAndArisesOnlyFromTransfers : Prop :=
  (∀ s : State, s.pc.getLsbD 0 = true → step s = .fault (.misalignedFetch s.pc)) ∧
  (∀ s t : State, step s = .next t → t.pc.getLsbD 0 = true →
    ∃ i, Fetches s i ∧ transfersControl s i = true ∧
      ((∃ a, i = .jmpl a ∧ (s.reg a).getLsbD 0 = true) ∨
       (∃ r a, (i = .brez r a ∨ i = .brnez r a) ∧ (s.reg a).getLsbD 0 = true) ∨
       (∃ r imm7, (i = .brezi r imm7 ∨ i = .brnezi r imm7) ∧ (s.cfg.brImmTarget s.pc imm7).getLsbD 0 = true))) ∧
  (∀ cfg : Config, cfg.wf = true → (State.resetFor cfg).pc.getLsbD 0 = false)

/-- R15, with the wrap at 0xFFFE and the unchecked targets. -/
def Obligations.PcAdvancesByTwoUnlessTransferred : Prop :=
  ∀ (i : Instr) (s t : State), exec i s = .next t →
    (transfersControl s i = false → t.pc.toNat = (s.pc.toNat + 2) % 65536) ∧
    (∀ a, i = .jmpl a → t.pc = s.reg a) ∧
    (∀ r a, i = .brez r a ∨ i = .brnez r a → transfersControl s i = true → t.pc = s.reg a) ∧
    (∀ r imm7, i = .brezi r imm7 ∨ i = .brnezi r imm7 → transfersControl s i = true →
      t.pc = s.cfg.brImmTarget s.pc imm7)

/-- R17, both columns of its table. -/
def Obligations.OnlyAddAndSubFamiliesTouchCarry : Prop :=
  (∀ (d r : Reg) (s t : State),
    (exec (.add d r) s = .next t → (t.c = true ↔ 65536 ≤ (s.reg d).toNat + (s.reg r).toNat)) ∧
    (exec (.addc d r) s = .next t → (t.c = true ↔ 65536 ≤ (s.reg d).toNat + (s.reg r).toNat + s.c.toNat)) ∧
    (exec (.sub d r) s = .next t → (t.c = true ↔ (s.reg d).toNat < (s.reg r).toNat)) ∧
    (exec (.subc d r) s = .next t → (t.c = true ↔ (s.reg d).toNat < (s.reg r).toNat + s.c.toNat))) ∧
  (∀ (i : Instr) (s t : State), writesCarry i = false → exec i s = .next t → t.c = s.c) ∧
  (∀ (i : Instr) (s : State) (b : Bool), readsCarry i = false →
    exec i (s.setCarry b) =
      match exec i s with
      | .next t => .next (if writesCarry i then t else t.setCarry b)
      | .fault f => .fault f
      | .refused r => .refused r)

/-- R12, both columns of its table; R11: no register is special. -/
def Obligations.RegistersReadAndWritten : Prop :=
  (∀ (i : Instr) (s t : State), exec i s = .next t → RegsKept s t (regsWritten s.cfg i)) ∧
  (∀ (i : Instr) (s : State) (q : Reg) (v : Word), q ∉ regsRead s i →
    exec i (s.setReg q v) =
      match exec i s with
      | .next t => .next (if q ∈ regsWritten s.cfg i then t else t.setReg q v)
      | .fault f => .fault f
      | .refused r => .refused r)

/-- R31, R35, R174. -/
def Obligations.MemoryReachedByLoadsAndStoresAlone : Prop :=
  (∀ (i : Instr) (s t : State), exec i s = .next t → BytesKept s t (bytesWritten s i)) ∧
  (∀ (i : Instr) (s t : State) (a : Word) (b : Byte), a ∉ bytesRead s i → exec i s = .next t →
    ∃ t', exec i (s.setByte a b) = .next t' ∧ t'.regs = t.regs ∧ t'.pc = t.pc ∧ t'.c = t.c ∧
      BytesKept t t' [a])

/-- The model's invariant: cfg "never changes during a run" (10_state.md section 1), 65536 cells (R30). -/
def Obligations.StepKeepsWellFormedState : Prop :=
  (∀ s t : State, s.wf → step s = .next t → t.wf) ∧
  (∀ s t : State, step s = .next t → t.cfg = s.cfg)

/-- R20. That `State.reset` holds the reference configuration is the model's choice (log 1), and so is its empty memory
(log 6, log 15), on which `State.wf` of it rests. -/
def Obligations.ResetStartsAtResetPc : Prop :=
  (∀ cfg : Config, cfg.wf = true →
    (State.resetFor cfg).pc = cfg.resetPc ∧ EvenAddr cfg.resetPc ∧
    (State.resetFor cfg).wf ∧ (State.resetFor cfg).afterReset) ∧
  State.reset = State.resetFor Config.reference ∧ Config.reference.wf = true ∧ State.reset.pc = 0x0000#16

/-- R228, for every configuration (there under the reference `cfg.BR_IMM_TARGET`). -/
def Obligations.FinalStatesAreSelfLoops : Prop :=
  ∀ s : State, Final s ↔
    (∃ r imm7, Fetches s (.brezi r imm7) ∧ s.reg r = 0#16 ∧ s.cfg.brImmTarget s.pc imm7 = s.pc) ∨
    (∃ r imm7, Fetches s (.brnezi r imm7) ∧ s.reg r ≠ 0#16 ∧ s.cfg.brImmTarget s.pc imm7 = s.pc) ∨
    (∃ r a, Fetches s (.brez r a) ∧ s.reg r = 0#16 ∧ s.reg a = s.pc) ∨
    (∃ r a, Fetches s (.brnez r a) ∧ s.reg r ≠ 0#16 ∧ s.reg a = s.pc) ∨
    (∃ a, Fetches s (.jmpl a) ∧ s.reg a = s.pc ∧ s.reg s.cfg.linkReg = s.pc + 2#16)

/-- R228, R201: the instructions that end a run keep the machine where it is, in any number of steps, and meet no
fault, for every configuration. -/
def Obligations.SelfLoopIsSafeForever : Prop :=
  ∀ s : State, SelfLoop s → (∀ t, Reaches s t → t = s) ∧ Safe s

/-- The loader of log 15 (the model's choice): R229 leaves outside how a program gets into memory. -/
def Obligations.PlacedWordIsExecuted : Prop :=
  ∀ (s : State) (w : Word),
    step (s.withFetchWord 16 w.toNat) =
      (match decode w with
        | .ok i => exec i (s.withFetchWord 16 w.toNat)
        | .error _ => .fault (.illegalInstruction w (s.withFetchWord 16 w.toNat).pc)) ∧
    (s.withFetchWord 16 w.toNat).regs = s.regs ∧ (s.withFetchWord 16 w.toNat).c = s.c ∧
    (EvenAddr s.pc → (s.withFetchWord 16 w.toNat).pc = s.pc)

/-! ### Load immediate and control transfer (40_load_immediate.md, 41_control_transfer.md) -/

/-- R100. -/
def Obligations.LdiLoadsSignExtendedImmediate : Prop :=
  (∀ (imm8 : BitVec 8) (d : BitVec 5), decode (0b000#3 ++ imm8 ++ d) = .ok (.ldi (regOfBits d) imm8)) ∧
  ∀ (d : Reg) (imm8 : BitVec 8) (s : State),
    ∃ t, exec (.ldi d imm8) s = .next t ∧ (t.reg d).toInt = imm8.toInt ∧ OnlyWrites s t d

/-- R110: the target is read before the link is written. -/
def Obligations.JmplLinksAndJumps : Prop :=
  (∀ a x : BitVec 5, decode (0b001101#6 ++ a ++ x) = .ok (.jmpl (regOfBits a))) ∧
  ∀ (a : Reg) (s : State),
    ∃ t, exec (.jmpl a) s = .next t ∧ t.pc = s.reg a ∧
      (t.reg s.cfg.linkReg).toNat = (s.pc.toNat + 2) % 65536 ∧
      RegsKept s t [s.cfg.linkReg] ∧ t.c = s.c ∧ BytesKept s t [] ∧ t.cfg = s.cfg

/-- R111, R112. -/
def Obligations.RegisterBranchesTestAndJump : Prop :=
  (∀ a s : BitVec 5,
    decode (0b001110#6 ++ a ++ s) = .ok (.brez (regOfBits s) (regOfBits a)) ∧
    decode (0b001111#6 ++ a ++ s) = .ok (.brnez (regOfBits s) (regOfBits a))) ∧
  ∀ (r a : Reg) (s : State),
    (∃ t, exec (.brez r a) s = .next t ∧
      ((s.reg r).toNat = 0 → t.pc = s.reg a) ∧ ((s.reg r).toNat ≠ 0 → t.pc = s.pc + 2#16) ∧ OnlyTransfers s t) ∧
    (∃ t, exec (.brnez r a) s = .next t ∧
      ((s.reg r).toNat ≠ 0 → t.pc = s.reg a) ∧ ((s.reg r).toNat = 0 → t.pc = s.pc + 2#16) ∧ OnlyTransfers s t)

/-- R113, R114. -/
def Obligations.ImmediateBranchesTestAndJump : Prop :=
  (∀ (imm7 : BitVec 7) (s : BitVec 5),
    decode (0b0100#4 ++ imm7 ++ s) = .ok (.brezi (regOfBits s) imm7) ∧
    decode (0b0101#4 ++ imm7 ++ s) = .ok (.brnezi (regOfBits s) imm7)) ∧
  ∀ (r : Reg) (imm7 : BitVec 7) (s : State),
    (∃ t, exec (.brezi r imm7) s = .next t ∧
      ((s.reg r).toNat = 0 → t.pc = s.cfg.brImmTarget s.pc imm7) ∧
      ((s.reg r).toNat ≠ 0 → t.pc = s.pc + 2#16) ∧ OnlyTransfers s t) ∧
    (∃ t, exec (.brnezi r imm7) s = .next t ∧
      ((s.reg r).toNat ≠ 0 → t.pc = s.cfg.brImmTarget s.pc imm7) ∧
      ((s.reg r).toNat = 0 → t.pc = s.pc + 2#16) ∧ OnlyTransfers s t)

/-- R115; the last clause says that the model's data leaves the parameter open (log 2). -/
def Obligations.ReferenceBranchTargetFormula : Prop :=
  (∀ (s t : State) (r : Reg) (imm7 : BitVec 7),
    (s.reg r = 0#16 → exec (.brezi r imm7) s = .next t → t.pc = s.cfg.brImmTarget s.pc imm7) ∧
    (s.reg r ≠ 0#16 → exec (.brnezi r imm7) s = .next t → t.pc = s.cfg.brImmTarget s.pc imm7)) ∧
  (∀ (pc : Word) (imm7 : BitVec 7),
    ((Config.reference.brImmTarget pc imm7).toNat : Int) = ((pc.toNat : Int) + 2 * imm7.toInt) % 65536 ∧
    (EvenAddr pc → EvenAddr (Config.reference.brImmTarget pc imm7))) ∧
  (∀ f : Word → BitVec 7 → Word, ∃ cfg : Config, ∀ pc imm7, cfg.brImmTarget pc imm7 = f pc imm7)

/-! ### Integer arithmetic (42_arithmetic.md) -/

/-- R120, R121. -/
def Obligations.AddiAndMuliUseSignedImmediate : Prop :=
  (∀ (imm7 : BitVec 7) (d : BitVec 5),
    decode (0b0110#4 ++ imm7 ++ d) = .ok (.addi (regOfBits d) imm7) ∧
    decode (0b0111#4 ++ imm7 ++ d) = .ok (.muli (regOfBits d) imm7)) ∧
  ∀ (d : Reg) (imm7 : BitVec 7) (s : State),
    (∃ t, exec (.addi d imm7) s = .next t ∧
      ((t.reg d).toNat : Int) = ((s.reg d).toNat + imm7.toInt) % 65536 ∧ OnlyWrites s t d) ∧
    (∃ t, exec (.muli d imm7) s = .next t ∧
      ((t.reg d).toNat : Int) = ((s.reg d).toInt * imm7.toInt) % 65536 ∧ OnlyWrites s t d)

/-- R122, R124. -/
def Obligations.AddAndSubWithoutCarryInput : Prop :=
  (∀ s d : BitVec 5,
    decode (0b100000#6 ++ s ++ d) = .ok (.add (regOfBits d) (regOfBits s)) ∧
    decode (0b100010#6 ++ s ++ d) = .ok (.sub (regOfBits d) (regOfBits s))) ∧
  ∀ (d r : Reg) (s : State),
    (∃ t, exec (.add d r) s = .next t ∧
      (t.reg d).toNat + 65536 * t.c.toNat = (s.reg d).toNat + (s.reg r).toNat ∧ OnlyWritesAndCarry s t d) ∧
    (∃ t, exec (.sub d r) s = .next t ∧
      ((t.reg d).toNat : Int) - 65536 * (t.c.toNat : Int) = ((s.reg d).toNat : Int) - (s.reg r).toNat ∧
      OnlyWritesAndCarry s t d)

/-- R123, R125. -/
def Obligations.AddcAndSubcWithCarryInput : Prop :=
  (∀ s d : BitVec 5,
    decode (0b100001#6 ++ s ++ d) = .ok (.addc (regOfBits d) (regOfBits s)) ∧
    decode (0b100011#6 ++ s ++ d) = .ok (.subc (regOfBits d) (regOfBits s))) ∧
  ∀ (d r : Reg) (s : State),
    (∃ t, exec (.addc d r) s = .next t ∧
      (t.reg d).toNat + 65536 * t.c.toNat = (s.reg d).toNat + (s.reg r).toNat + s.c.toNat ∧
      OnlyWritesAndCarry s t d) ∧
    (∃ t, exec (.subc d r) s = .next t ∧
      ((t.reg d).toNat : Int) - 65536 * (t.c.toNat : Int) =
        ((s.reg d).toNat : Int) - (s.reg r).toNat - s.c.toNat ∧ OnlyWritesAndCarry s t d)

/-- R126, R127. -/
def Obligations.MulAndMuluWriteLowWord : Prop :=
  (∀ s d : BitVec 5,
    decode (0b100100#6 ++ s ++ d) = .ok (.mul (regOfBits d) (regOfBits s)) ∧
    decode (0b100101#6 ++ s ++ d) = .ok (.mulu (regOfBits d) (regOfBits s))) ∧
  ∀ (d r : Reg) (s : State),
    (∃ t, exec (.mul d r) s = .next t ∧
      ((t.reg d).toNat : Int) = ((s.reg d).toInt * (s.reg r).toInt) % 65536 ∧ OnlyWrites s t d) ∧
    (∃ t, exec (.mulu d r) s = .next t ∧
      (t.reg d).toNat = ((s.reg d).toNat * (s.reg r).toNat) % 65536 ∧ OnlyWrites s t d) ∧
    exec (.mul d r) s = exec (.mulu d r) s

/-- R128, R129 (Int division by a positive number rounds down). -/
def Obligations.MulhAndMulhuWriteHighWord : Prop :=
  (∀ s d : BitVec 5,
    decode (0b100110#6 ++ s ++ d) = .ok (.mulh (regOfBits d) (regOfBits s)) ∧
    decode (0b100111#6 ++ s ++ d) = .ok (.mulhu (regOfBits d) (regOfBits s))) ∧
  ∀ (d r : Reg) (s : State),
    (∃ t, exec (.mulh d r) s = .next t ∧
      (t.reg d).toInt = ((s.reg d).toInt * (s.reg r).toInt) / 65536 ∧ OnlyWrites s t d) ∧
    (∃ t, exec (.mulhu d r) s = .next t ∧
      (t.reg d).toNat = ((s.reg d).toNat * (s.reg r).toNat) / 65536 ∧ OnlyWrites s t d)

/-! ### Logic and negation (43_logic_negate.md) -/

/-- R140 to R143. -/
def Obligations.LogicIsBitwise : Prop :=
  (∀ s d : BitVec 5,
    decode (0b101000#6 ++ s ++ d) = .ok (.or (regOfBits d) (regOfBits s)) ∧
    decode (0b101001#6 ++ s ++ d) = .ok (.and (regOfBits d) (regOfBits s)) ∧
    decode (0b101010#6 ++ s ++ d) = .ok (.xor (regOfBits d) (regOfBits s)) ∧
    decode (0b101011#6 ++ s ++ d) = .ok (.not (regOfBits d))) ∧
  ∀ (d r : Reg) (s : State),
    (∃ t, exec (.or d r) s = .next t ∧ OnlyWrites s t d ∧
      ∀ i < 16, (t.reg d).getLsbD i = ((s.reg d).getLsbD i || (s.reg r).getLsbD i)) ∧
    (∃ t, exec (.and d r) s = .next t ∧ OnlyWrites s t d ∧
      ∀ i < 16, (t.reg d).getLsbD i = ((s.reg d).getLsbD i && (s.reg r).getLsbD i)) ∧
    (∃ t, exec (.xor d r) s = .next t ∧ OnlyWrites s t d ∧
      ∀ i < 16, (t.reg d).getLsbD i = ((s.reg d).getLsbD i != (s.reg r).getLsbD i)) ∧
    (∃ t, exec (.not d) s = .next t ∧ OnlyWrites s t d ∧
      ∀ i < 16, (t.reg d).getLsbD i = !(s.reg d).getLsbD i)

/-- R144; 90_conflicts.md C1. -/
def Obligations.NegIsTwosComplementButForFFFF : Prop :=
  (∀ x d : BitVec 5, decode (0b101100#6 ++ x ++ d) = .ok (.neg (regOfBits d))) ∧
  (∀ (d : Reg) (s : State),
    ∃ t, exec (.neg d) s = .next t ∧ OnlyWrites s t d ∧
      ((s.reg d).toNat = 65535 → t.reg d = s.cfg.negFFFF) ∧
      ((s.reg d).toNat ≠ 65535 → (t.reg d).toNat = (65536 - (s.reg d).toNat) % 65536)) ∧
  Config.reference.negFFFF = 0xFFFF#16

/-! ### Shifts, bit set/clear, rotate (44_shift_bit.md) -/

/-- R150 to R152, as the source's operation cells draw them. -/
def Obligations.ShiftsByOnePlace : Prop :=
  (∀ x d : BitVec 5,
    decode (0b101101#6 ++ x ++ d) = .ok (.asr (regOfBits d)) ∧
    decode (0b101110#6 ++ x ++ d) = .ok (.lsl (regOfBits d)) ∧
    decode (0b101111#6 ++ x ++ d) = .ok (.lsr (regOfBits d))) ∧
  ∀ (d : Reg) (s : State),
    (∃ t, exec (.asr d) s = .next t ∧ OnlyWrites s t d ∧
      (t.reg d).getLsbD 15 = (s.reg d).getLsbD 15 ∧
      ∀ i < 15, (t.reg d).getLsbD i = (s.reg d).getLsbD (i + 1)) ∧
    (∃ t, exec (.lsl d) s = .next t ∧ OnlyWrites s t d ∧
      (t.reg d).getLsbD 0 = false ∧ ∀ i < 15, (t.reg d).getLsbD (i + 1) = (s.reg d).getLsbD i) ∧
    (∃ t, exec (.lsr d) s = .next t ∧ OnlyWrites s t d ∧
      (t.reg d).getLsbD 15 = false ∧ ∀ i < 15, (t.reg d).getLsbD i = (s.reg d).getLsbD (i + 1))

/-- R153, R154. -/
def Obligations.ShiftsByImmediate : Prop :=
  (∀ (x : BitVec 1) (n : BitVec 4) (d : BitVec 5),
    decode (0b110000#6 ++ x ++ n ++ d) = .ok (.lsli (regOfBits d) n.toNat) ∧
    decode (0b110001#6 ++ x ++ n ++ d) = .ok (.lsri (regOfBits d) n.toNat)) ∧
  ∀ (d : Reg) (n : Nat) (s : State), n < 16 →
    (∃ t, exec (.lsli d n) s = .next t ∧
      (t.reg d).toNat = ((s.reg d).toNat * 2 ^ n) % 65536 ∧ OnlyWrites s t d) ∧
    (∃ t, exec (.lsri d n) s = .next t ∧
      (t.reg d).toNat = (s.reg d).toNat / 2 ^ n ∧ OnlyWrites s t d)

/-- R155. -/
def Obligations.ScbSetsOrClearsOneBit : Prop :=
  (∀ (n : BitVec 4) (d : BitVec 5),
    decode (0b110010#6 ++ 0b1#1 ++ n ++ d) = .ok (.scb (regOfBits d) .set n.toNat) ∧
    decode (0b110010#6 ++ 0b0#1 ++ n ++ d) = .ok (.scb (regOfBits d) .clear n.toNat)) ∧
  ∀ (d : Reg) (op : BitOp) (n : Nat) (s : State), n < 16 →
    ∃ t, exec (.scb d op n) s = .next t ∧ OnlyWrites s t d ∧
      (t.reg d).getLsbD n = (match op with
        | .set => true
        | .clear => false) ∧
      ∀ i < 16, i ≠ n → (t.reg d).getLsbD i = (s.reg d).getLsbD i

/-- R156. -/
def Obligations.RotiRotatesByDistance : Prop :=
  (∀ (n : BitVec 4) (d : BitVec 5),
    decode (0b110011#6 ++ 0b0#1 ++ n ++ d) = .ok (.roti (regOfBits d) .left n.toNat) ∧
    decode (0b110011#6 ++ 0b1#1 ++ n ++ d) = .ok (.roti (regOfBits d) .right n.toNat)) ∧
  ∀ (d : Reg) (n : Nat) (s : State), n < 16 →
    (∃ t, exec (.roti d .left n) s = .next t ∧ OnlyWrites s t d ∧
      ∀ i < 16, (t.reg d).getLsbD ((i + n) % 16) = (s.reg d).getLsbD i) ∧
    (∃ t, exec (.roti d .right n) s = .next t ∧ OnlyWrites s t d ∧
      ∀ i < 16, (t.reg d).getLsbD i = (s.reg d).getLsbD ((i + n) % 16))

/-! ### Comparisons and move (45_compare_move.md) -/

/-- R160 to R163. -/
def Obligations.OrderComparesWriteTruthValue : Prop :=
  (∀ s d : BitVec 5,
    decode (0b110101#6 ++ s ++ d) = .ok (.cmplt (regOfBits d) (regOfBits s)) ∧
    decode (0b110110#6 ++ s ++ d) = .ok (.cmpltu (regOfBits d) (regOfBits s)) ∧
    decode (0b110111#6 ++ s ++ d) = .ok (.cmplte (regOfBits d) (regOfBits s)) ∧
    decode (0b111000#6 ++ s ++ d) = .ok (.cmplteu (regOfBits d) (regOfBits s))) ∧
  ∀ (d r : Reg) (s : State),
    (∃ t, exec (.cmplt d r) s = .next t ∧ OnlyWrites s t d ∧
      (t.reg d).toNat = if (s.reg d).toInt < (s.reg r).toInt then 1 else 0) ∧
    (∃ t, exec (.cmpltu d r) s = .next t ∧ OnlyWrites s t d ∧
      (t.reg d).toNat = if (s.reg d).toNat < (s.reg r).toNat then 1 else 0) ∧
    (∃ t, exec (.cmplte d r) s = .next t ∧ OnlyWrites s t d ∧
      (t.reg d).toNat = if (s.reg d).toInt ≤ (s.reg r).toInt then 1 else 0) ∧
    (∃ t, exec (.cmplteu d r) s = .next t ∧ OnlyWrites s t d ∧
      (t.reg d).toNat = if (s.reg d).toNat ≤ (s.reg r).toNat then 1 else 0)

/-- R164, R165, R166. -/
def Obligations.EqualityComparesAndMov : Prop :=
  (∀ s d : BitVec 5,
    decode (0b111001#6 ++ s ++ d) = .ok (.cmpe (regOfBits d) (regOfBits s)) ∧
    decode (0b111010#6 ++ s ++ d) = .ok (.cmpei (regOfBits d) s) ∧
    decode (0b111011#6 ++ s ++ d) = .ok (.mov (regOfBits d) (regOfBits s))) ∧
  ∀ (d r : Reg) (imm5 : BitVec 5) (s : State),
    (∃ t, exec (.cmpe d r) s = .next t ∧ OnlyWrites s t d ∧
      (t.reg d).toNat = if (s.reg d).toNat = (s.reg r).toNat then 1 else 0) ∧
    (∃ t, exec (.cmpei d imm5) s = .next t ∧ OnlyWrites s t d ∧
      (t.reg d).toNat = if (s.reg d).toInt = imm5.toInt then 1 else 0) ∧
    (∃ t, exec (.mov d r) s = .next t ∧ OnlyWrites s t d ∧ t.reg d = s.reg r)

/-! ### Loads and stores (46_load_store.md, 20_memory.md) -/

/-- R170 with R203 checks 5 to 7. That a byte nothing has written stops the load is the model's choice of R23's two
options (log 6); the address that CodeRegionAccess records is DEDUCED (log 8). -/
def Obligations.LdLoadsWordOrFaults : Prop :=
  (∀ a d : BitVec 5, decode (0b111100#6 ++ a ++ d) = .ok (.ld (regOfBits d) (regOfBits a))) ∧
  ∀ (d a : Reg) (s : State) (ea : Word), ea = s.reg a →
    (¬ EvenAddr ea → exec (.ld d a) s = .fault (.misalignedAccess ea)) ∧
    (EvenAddr ea → (s.cfg.inCode ea = true ∨ s.cfg.inCode (ea + 1#16) = true) →
      exec (.ld d a) s = .fault (.codeRegionAccess ea)) ∧
    (EvenAddr ea → s.cfg.inCode ea = false → s.cfg.inCode (ea + 1#16) = false →
      (s.cfg.area ea = .unmapped → exec (.ld d a) s = .fault (.unmappedAccess ea)) ∧
      (s.cfg.area ea = .device → exec (.ld d a) s = .fault (.unmodelledDevice ea)) ∧
      (s.cfg.area ea = .ram → s.cfg.area (ea + 1#16) = .unmapped →
        exec (.ld d a) s = .fault (.unmappedAccess (ea + 1#16))) ∧
      (s.cfg.area ea = .ram → s.cfg.area (ea + 1#16) = .device →
        exec (.ld d a) s = .fault (.unmodelledDevice (ea + 1#16)))) ∧
    (EvenAddr ea → DataByte s ea → DataByte s (ea + 1#16) →
      (s.byteAt? ea = none → exec (.ld d a) s = .fault (.uninitialisedRead ea)) ∧
      ((s.byteAt? ea).isSome = true → s.byteAt? (ea + 1#16) = none →
        exec (.ld d a) s = .fault (.uninitialisedRead (ea + 1#16))) ∧
      (∀ lower higher, s.byteAt? ea = some lower → s.byteAt? (ea + 1#16) = some higher →
        ∃ t, exec (.ld d a) s = .next t ∧ OnlyWrites s t d ∧
          (t.reg d).toNat = match s.cfg.byteOrder with
            | .little => 256 * higher.toNat + lower.toNat
            | .big => 256 * lower.toNat + higher.toNat))

/-- R171 with R203 checks 6 and 7. That a byte nothing has written stops the load is the model's choice of R23's two
options (log 6). -/
def Obligations.LdbLoadsByteOrFaults : Prop :=
  (∀ a d : BitVec 5, decode (0b111101#6 ++ a ++ d) = .ok (.ldb (regOfBits d) (regOfBits a))) ∧
  ∀ (d a : Reg) (s : State) (ea : Word), ea = s.reg a →
    (s.cfg.inCode ea = true → exec (.ldb d a) s = .fault (.codeRegionAccess ea)) ∧
    (s.cfg.inCode ea = false →
      (s.cfg.area ea = .unmapped → exec (.ldb d a) s = .fault (.unmappedAccess ea)) ∧
      (s.cfg.area ea = .device → exec (.ldb d a) s = .fault (.unmodelledDevice ea))) ∧
    (DataByte s ea →
      (s.byteAt? ea = none → exec (.ldb d a) s = .fault (.uninitialisedRead ea)) ∧
      (∀ b, s.byteAt? ea = some b →
        ∃ t, exec (.ldb d a) s = .next t ∧ OnlyWrites s t d ∧
          match s.cfg.ldbExtend with
            | .zero => (t.reg d).toNat = b.toNat
            | .sign => (t.reg d).toInt = b.toInt))

/-- R172 with R203 checks 5 and 6. The address that CodeRegionAccess records is DEDUCED (log 8). -/
def Obligations.StStoresWordOrFaults : Prop :=
  (∀ a r : BitVec 5, decode (0b111110#6 ++ a ++ r) = .ok (.st (regOfBits a) (regOfBits r))) ∧
  ∀ (a r : Reg) (s : State) (ea : Word), ea = s.reg a →
    (¬ EvenAddr ea → exec (.st a r) s = .fault (.misalignedAccess ea)) ∧
    (EvenAddr ea → (s.cfg.inCode ea = true ∨ s.cfg.inCode (ea + 1#16) = true) →
      exec (.st a r) s = .fault (.codeRegionAccess ea)) ∧
    (EvenAddr ea → s.cfg.inCode ea = false → s.cfg.inCode (ea + 1#16) = false →
      (s.cfg.area ea = .unmapped → exec (.st a r) s = .fault (.unmappedAccess ea)) ∧
      (s.cfg.area ea = .device → exec (.st a r) s = .fault (.unmodelledDevice ea)) ∧
      (s.cfg.area ea = .ram → s.cfg.area (ea + 1#16) = .unmapped →
        exec (.st a r) s = .fault (.unmappedAccess (ea + 1#16))) ∧
      (s.cfg.area ea = .ram → s.cfg.area (ea + 1#16) = .device →
        exec (.st a r) s = .fault (.unmodelledDevice (ea + 1#16)))) ∧
    (EvenAddr ea → DataByte s ea → DataByte s (ea + 1#16) →
      ∃ t lower higher, exec (.st a r) s = .next t ∧ OnlyStores s t [ea, ea + 1#16] ∧
        t.byteAt? ea = some lower ∧ t.byteAt? (ea + 1#16) = some higher ∧
        (s.reg r).toNat = match s.cfg.byteOrder with
          | .little => 256 * higher.toNat + lower.toNat
          | .big => 256 * lower.toNat + higher.toNat)

/-- R173 with R203 check 6. -/
def Obligations.StbStoresLowByteOrFaults : Prop :=
  (∀ a r : BitVec 5, decode (0b111111#6 ++ a ++ r) = .ok (.stb (regOfBits a) (regOfBits r))) ∧
  ∀ (a r : Reg) (s : State) (ea : Word), ea = s.reg a →
    (s.cfg.inCode ea = true → exec (.stb a r) s = .fault (.codeRegionAccess ea)) ∧
    (s.cfg.inCode ea = false →
      (s.cfg.area ea = .unmapped → exec (.stb a r) s = .fault (.unmappedAccess ea)) ∧
      (s.cfg.area ea = .device → exec (.stb a r) s = .fault (.unmodelledDevice ea))) ∧
    (DataByte s ea →
      ∃ t b, exec (.stb a r) s = .next t ∧ OnlyStores s t [ea] ∧
        t.byteAt? ea = some b ∧ b.toNat = (s.reg r).toNat % 256)

/-- R39; `x` holds A and `y` holds A + 1. -/
def Obligations.MixedWidthAccesses : Prop :=
  ∀ (s : State) (x y r q d : Reg), EvenAddr (s.reg x) → s.reg y = s.reg x + 1#16 →
    DataByte s (s.reg x) → DataByte s (s.reg y) →
    (∃ t, exec (.st x r) s = .next t ∧
      (∃ u, exec (.ldb d x) t = .next u ∧
        u.reg d = widenByte s.cfg.ldbExtend (match s.cfg.byteOrder with
          | .little => (s.reg r).extractLsb' 0 8
          | .big => (s.reg r).extractLsb' 8 8)) ∧
      (∃ u, exec (.ldb d y) t = .next u ∧
        u.reg d = widenByte s.cfg.ldbExtend (match s.cfg.byteOrder with
          | .little => (s.reg r).extractLsb' 8 8
          | .big => (s.reg r).extractLsb' 0 8))) ∧
    (∃ t u v, exec (.stb x r) s = .next t ∧ exec (.stb y q) t = .next u ∧ exec (.ld d x) u = .next v ∧
      v.reg d = match s.cfg.byteOrder with
        | .little => (s.reg q).extractLsb' 0 8 ++ (s.reg r).extractLsb' 0 8
        | .big => (s.reg r).extractLsb' 0 8 ++ (s.reg q).extractLsb' 0 8)

/-- R32: "A program that only ever accesses a given pair of bytes with 2-byte accesses ... cannot observe the parameter". -/
def Obligations.ByteOrderUnobservableByWordAccesses : Prop :=
  ∀ s t s' : State,
    (s.cfg.byteOrder = .little ∧ s'.cfg = { s.cfg with byteOrder := .big } ∧ s'.regs = s.regs ∧ s'.pc = s.pc ∧
      s'.c = s.c ∧
      ∀ a, EvenAddr a → s'.byteAt? a = s.byteAt? (a + 1#16) ∧ s'.byteAt? (a + 1#16) = s.byteAt? a) →
    step s = .next t →
    (∀ i, Fetches s i → (∀ d a, i ≠ .ldb d a) ∧ ∀ a r, i ≠ .stb a r) →
    ∃ t' i, Fetches s i ∧ Fetches s' i ∧ step s' = .next t' ∧
      t'.cfg = { t.cfg with byteOrder := .big } ∧ t'.regs = t.regs ∧ t'.pc = t.pc ∧ t'.c = t.c ∧
      ∀ a, EvenAddr a → t'.byteAt? a = t.byteAt? (a + 1#16) ∧ t'.byteAt? (a + 1#16) = t.byteAt? a

/-! ### Several instructions (95_test_vectors.md section 8) -/

/-- R128's corner case; property 2 of section 8. -/
def Obligations.ProductOfHighAndLowWords : Prop :=
  ∀ (x y z : Reg) (s : State), x ≠ y → x ≠ z → y ≠ z →
    (∃ t u v, exec (.mov z x) s = .next t ∧ exec (.mul x y) t = .next u ∧ exec (.mulh z y) u = .next v ∧
      (v.reg z).toInt * 65536 + (v.reg x).toNat = (s.reg x).toInt * (s.reg y).toInt ∧ v.c = s.c) ∧
    (∃ t u v, exec (.mov z x) s = .next t ∧ exec (.mulu x y) t = .next u ∧ exec (.mulhu z y) u = .next v ∧
      (v.reg z).toNat * 65536 + (v.reg x).toNat = (s.reg x).toNat * (s.reg y).toNat ∧ v.c = s.c)

/-- R122 to R125: the carry chain ("the upper words of a multi-word addition"). -/
def Obligations.MultiWordAddAndSubtract : Prop :=
  ∀ (al ah bl bh : Reg) (s : State), al ≠ ah → al ≠ bh →
    (∃ t u, exec (.add al bl) s = .next t ∧ exec (.addc ah bh) t = .next u ∧
      (u.reg al).toNat + 65536 * (u.reg ah).toNat + 4294967296 * u.c.toNat =
        ((s.reg al).toNat + 65536 * (s.reg ah).toNat) + ((s.reg bl).toNat + 65536 * (s.reg bh).toNat)) ∧
    (∃ t u, exec (.sub al bl) s = .next t ∧ exec (.subc ah bh) t = .next u ∧
      ((u.reg al).toNat : Int) + 65536 * (u.reg ah).toNat - 4294967296 * (u.c.toNat : Int) =
        (((s.reg al).toNat : Int) + 65536 * (s.reg ah).toNat) - ((s.reg bl).toNat + 65536 * (s.reg bh).toNat))

/-- Properties 3, 4 and 5 of section 8. -/
def Obligations.InversePairsRestoreRegister : Prop :=
  ∀ (d r : Reg) (s : State),
    (d ≠ r → ∃ t u, exec (.add d r) s = .next t ∧ exec (.sub d r) t = .next u ∧ u.reg d = s.reg d) ∧
    (∃ t u, exec (.not d) s = .next t ∧ exec (.not d) t = .next u ∧ u.reg d = s.reg d) ∧
    (∀ n < 16, ∃ t u, exec (.roti d .left n) s = .next t ∧ exec (.roti d .right n) t = .next u ∧
      u.reg d = s.reg d) ∧
    (∀ n, 1 ≤ n → n < 16 → exec (.roti d .left n) s = exec (.roti d .right (16 - n)) s) ∧
    (s.reg d ≠ 0xFFFF#16 → ∃ t u v, exec (.neg d) s = .next t ∧ exec (.not d) s = .next u ∧
      exec (.addi d 1#7) u = .next v ∧ t.reg d = v.reg d)
end

