-- ==== Sys2Proof/Laws/State.lean ====
section
/-! SUPPORT. One lemma per field per update of a state, and what an updated state reads. -/

namespace Sys2Proof.Machine

variable (s : State) (r : Reg) (v a : Word) (b : Bool) (x : Byte)

@[simp] theorem State.setReg_cfg : (s.setReg r v).cfg = s.cfg := rfl
@[simp] theorem State.setReg_pc : (s.setReg r v).pc = s.pc := rfl
@[simp] theorem State.setReg_c : (s.setReg r v).c = s.c := rfl
@[simp] theorem State.setReg_mem : (s.setReg r v).mem = s.mem := rfl
@[simp] theorem State.setReg_regs : (s.setReg r v).regs = s.regs.set r v := rfl
@[simp] theorem State.setReg_nextPc : (s.setReg r v).nextPc = s.nextPc := rfl
@[simp] theorem State.setReg_byteAt? : (s.setReg r v).byteAt? a = s.byteAt? a := rfl

@[simp] theorem State.setCarry_cfg : (s.setCarry b).cfg = s.cfg := rfl
@[simp] theorem State.setCarry_regs : (s.setCarry b).regs = s.regs := rfl
@[simp] theorem State.setCarry_pc : (s.setCarry b).pc = s.pc := rfl
@[simp] theorem State.setCarry_c : (s.setCarry b).c = b := rfl
@[simp] theorem State.setCarry_mem : (s.setCarry b).mem = s.mem := rfl
@[simp] theorem State.setCarry_reg : (s.setCarry b).reg r = s.reg r := rfl
@[simp] theorem State.setCarry_nextPc : (s.setCarry b).nextPc = s.nextPc := rfl
@[simp] theorem State.setCarry_byteAt? : (s.setCarry b).byteAt? a = s.byteAt? a := rfl

@[simp] theorem State.setPc_cfg : (s.setPc v).cfg = s.cfg := rfl
@[simp] theorem State.setPc_regs : (s.setPc v).regs = s.regs := rfl
@[simp] theorem State.setPc_pc : (s.setPc v).pc = v := rfl
@[simp] theorem State.setPc_c : (s.setPc v).c = s.c := rfl
@[simp] theorem State.setPc_mem : (s.setPc v).mem = s.mem := rfl
@[simp] theorem State.setPc_reg : (s.setPc v).reg r = s.reg r := rfl
@[simp] theorem State.setPc_byteAt? : (s.setPc v).byteAt? a = s.byteAt? a := rfl

@[simp] theorem State.advance_cfg : s.advance.cfg = s.cfg := rfl
@[simp] theorem State.advance_regs : s.advance.regs = s.regs := rfl
@[simp] theorem State.advance_pc : s.advance.pc = s.pc + 2#16 := rfl
@[simp] theorem State.advance_c : s.advance.c = s.c := rfl
@[simp] theorem State.advance_mem : s.advance.mem = s.mem := rfl
@[simp] theorem State.advance_reg : s.advance.reg r = s.reg r := rfl
@[simp] theorem State.advance_byteAt? : s.advance.byteAt? a = s.byteAt? a := rfl

@[simp] theorem State.setByte_cfg : (s.setByte a x).cfg = s.cfg := rfl
@[simp] theorem State.setByte_regs : (s.setByte a x).regs = s.regs := rfl
@[simp] theorem State.setByte_pc : (s.setByte a x).pc = s.pc := rfl
@[simp] theorem State.setByte_c : (s.setByte a x).c = s.c := rfl
@[simp] theorem State.setByte_mem : (s.setByte a x).mem = Memory.write s.mem a.toNat x := rfl
@[simp] theorem State.setByte_reg : (s.setByte a x).reg r = s.reg r := rfl
@[simp] theorem State.setByte_nextPc : (s.setByte a x).nextPc = s.nextPc := rfl

/-- A register written reads as the value written, and every other as before (10_state.md R11). -/
theorem State.setReg_reg (q : Reg) : (s.setReg r v).reg q = if q = r then v else s.reg q := by
  obtain ⟨q, hq⟩ := q
  obtain ⟨r, hr⟩ := r
  simp [State.setReg, State.reg, Vector.getElem_set, eq_comm]

@[simp] theorem State.setReg_reg_self : (s.setReg r v).reg r = v := by simp [State.setReg_reg]

@[simp] theorem State.setReg_reg_of_ne {q : Reg} (h : q ≠ r) : (s.setReg r v).reg q = s.reg q := by
  simp [State.setReg_reg, h]

theorem State.reg_eq_getElem : s.reg r = s.regs[r] := rfl

/-- Two register files that read alike are equal. -/
theorem State.regs_ext {s t : State} (h : ∀ r, s.reg r = t.reg r) : s.regs = t.regs :=
  Vector.ext fun i hi => h ⟨i, hi⟩

/-- Two states with equal parts are equal. -/
theorem State.ext_of {s t : State} (hcfg : s.cfg = t.cfg) (hregs : ∀ r, s.reg r = t.reg r) (hpc : s.pc = t.pc)
    (hc : s.c = t.c) (hmem : s.mem = t.mem) : s = t := by
  have hr := State.regs_ext hregs
  cases s
  cases t
  simp_all

end Sys2Proof.Machine
end

