-- ==== Sys2Proof/Laws/Memory.lean ====
section
/-! SUPPORT. The laws of memory: a read after a write, the canonical form kept, equal reads are equal data. -/

namespace Sys2Proof.Machine

theorem Memory.read_write (m : Memory) (a k : Nat) (b : Byte) :
    Memory.read (Memory.write m a b) k = if a = k then some b else Memory.read m k := by
  induction m with
  | nil => simp [Memory.read, Memory.write]
  | cons x rest ih =>
    obtain ⟨j, v⟩ := x
    rw [Memory.write]
    rcases lt_trichotomy a j with h | h | h
    · simp [h, Memory.read]
    · subst h
      by_cases hk : a = k <;> simp [hk, Memory.read]
    · have h1 : ¬ a < j := by omega
      have h2 : ¬ a = j := by omega
      rw [if_neg h1, if_neg h2, Memory.read, Memory.read, ih]
      by_cases hk : j = k
      · simp [hk, show ¬ a = k by omega]
      · simp [hk]

theorem Memory.mem_write {m : Memory} {a : Nat} {b : Byte} {x : Host.Cell} (h : x ∈ Memory.write m a b) :
    x = (a, b) ∨ x ∈ m := by
  induction m with
  | nil => simpa [Memory.write] using h
  | cons y rest ih =>
    simp only [Memory.write] at h
    split_ifs at h <;> simp only [List.mem_cons] at h ⊢ <;> tauto

/-- A write keeps the canonical form. -/
theorem Memory.write_wf {m : Memory} {a : Nat} (b : Byte) (ha : a < 65536) (h : Memory.wf m) :
    Memory.wf (Memory.write m a b) := by
  refine ⟨?_, fun x hx => ?_⟩
  · have hp := h.1
    clear h
    induction m with
    | nil => simp [Memory.write]
    | cons y rest ih =>
      obtain ⟨k, v⟩ := y
      rw [List.pairwise_cons] at hp
      simp only [Memory.write]
      split_ifs with h1 h2
      · refine List.pairwise_cons.2 ⟨fun x hx => ?_, List.pairwise_cons.2 hp⟩
        rcases List.mem_cons.1 hx with rfl | hx
        · exact h1
        · exact h1.trans (hp.1 x hx)
      · exact List.pairwise_cons.2 ⟨fun x hx => h2 ▸ hp.1 x hx, hp.2⟩
      · refine List.pairwise_cons.2 ⟨fun x hx => ?_, ih hp.2⟩
        rcases Memory.mem_write hx with rfl | hx
        · show k < a
          omega
        · exact hp.1 x hx
  · rcases Memory.mem_write hx with rfl | hx
    · exact ha
    · exact h.2 x hx

theorem Memory.read_eq_some {m : Memory} {a : Nat} {b : Byte} (h : m.Pairwise (fun x y => x.1 < y.1)) :
    Memory.read m a = some b ↔ (a, b) ∈ m := by
  induction m with
  | nil => simp [Memory.read, Memory.unlisted]
  | cons x rest ih =>
    obtain ⟨k, v⟩ := x
    rw [List.pairwise_cons] at h
    simp only [Memory.read, List.mem_cons, Prod.mk.injEq]
    split_ifs with hk
    · subst hk
      have hn : (k, b) ∉ rest := fun hm => lt_irrefl k (h.1 _ hm)
      simp [hn, eq_comm]
    · simp [ih h.2, Ne.symm hk]

/-- Memories in canonical form that read alike are equal data. -/
theorem Memory.ext_of_read {m n : Memory} (hm : Memory.wf m) (hn : Memory.wf n)
    (h : ∀ a, Memory.read m a = Memory.read n a) : m = n := by
  have hmem : ∀ x, x ∈ m ↔ x ∈ n := fun ⟨a, b⟩ => by
    rw [← Memory.read_eq_some hm.1, ← Memory.read_eq_some hn.1, h]
  have nd : ∀ {k : Memory}, k.Pairwise (fun x y => x.1 < y.1) → k.Nodup := fun hk =>
    hk.imp (fun {x y} (hxy : x.1 < y.1) (he : x = y) => lt_irrefl y.1 (he ▸ hxy))
  refine List.Perm.eq_of_pairwise (le := fun x y => x.1 < y.1) (fun x y _ _ hxy hyx => ?_) hm.1 hn.1
    ((List.perm_ext_iff_of_nodup (nd hm.1) (nd hn.1)).2 hmem)
  exact absurd (hxy.trans hyx) (lt_irrefl _)

/-- A byte written reads as the value written, and every other as before. -/
theorem State.setByte_byteAt? (s : State) (a k : Word) (b : Byte) :
    (s.setByte a b).byteAt? k = if k = a then some b else s.byteAt? k := by
  simp [State.setByte, State.byteAt?, Memory.read_write, BitVec.toNat_inj, eq_comm]

/-- A byte written keeps memory in canonical form. -/
theorem State.setByte_mem_wf {s : State} (a : Word) (b : Byte) (h : Memory.wf s.mem) :
    Memory.wf (s.setByte a b).mem := Memory.write_wf b a.isLt h

theorem reset_mem_wf (cfg : Config) : Memory.wf (State.resetFor cfg).mem := by
  simp [State.resetFor, Memory.wf]

end Sys2Proof.Machine
end

