-- ==== Sys2Proof/Laws/Ops.lean ====
section
/-! SUPPORT. One lemma per shared operation that says all it can do; later proofs cite these and do not unfold. -/

namespace Sys2Proof.Machine

/-! ### Ends of instructions -/

theorem regsKept_setReg (s : State) (d : Reg) (v : Word) : RegsKept s (s.setReg d v) [d] := fun r hr =>
  State.setReg_reg_of_ne s d v (by simpa using hr)

theorem writeBack_spec (d : Reg) (v : Word) (s : State) :
    ∃ t, writeBack d v s = .next t ∧ t.reg d = v ∧ OnlyWrites s t d :=
  ⟨_, rfl, by simp, regsKept_setReg s d v, rfl, rfl, fun _ _ => rfl, rfl⟩

theorem writeBackCarry_spec (d : Reg) (v : Word) (c : Bool) (s : State) :
    ∃ t, writeBackCarry d v c s = .next t ∧ t.reg d = v ∧ t.c = c ∧ OnlyWritesAndCarry s t d :=
  ⟨_, rfl, by simp, rfl, regsKept_setReg s d v, rfl, fun _ _ => rfl, rfl⟩

theorem branchIf_spec (taken : Bool) (target : Word) (s : State) :
    ∃ t, branchIf taken target s = .next t ∧ t.pc = (if taken then target else s.pc + 2#16) ∧ OnlyTransfers s t := by
  cases taken <;> exact ⟨_, rfl, rfl, fun _ _ => rfl, rfl, fun _ _ => rfl, rfl⟩

/-! ### Checks -/

@[simp] theorem firstFault_nil : firstFault [] = none := rfl
@[simp] theorem firstFault_some (f : Fault) (l : List (Option Fault)) : firstFault (some f :: l) = some f := rfl
@[simp] theorem firstFault_none (l : List (Option Fault)) : firstFault (none :: l) = firstFault l := rfl

theorem firstFault_cons_eq_none (f : Option Fault) (l : List (Option Fault)) :
    firstFault (f :: l) = none ↔ f = none ∧ firstFault l = none := by
  cases f <;> simp

theorem afterChecks_eq_ok {α : Type} {checks : List (Option Fault)} {k : Except Fault α} {x : α} :
    afterChecks checks k = .ok x ↔ firstFault checks = none ∧ k = .ok x := by
  unfold afterChecks
  cases firstFault checks <;> simp

theorem afterChecks_of_none {α : Type} {checks : List (Option Fault)} (k : Except Fault α)
    (h : firstFault checks = none) : afterChecks checks k = k := by
  simp [afterChecks, h]

theorem areaFault_eq_none {s : State} {a : Word} : areaFault s a = none ↔ s.cfg.area a = .ram := by
  unfold areaFault
  cases s.cfg.area a <;> simp

theorem alignmentFault_eq_none {a : Word} : alignmentFault a = none ↔ EvenAddr a := by
  simp [alignmentFault, EvenAddr]

theorem codeFault_eq_none {s : State} {ea : Word} {bytes : List Word} :
    codeFault s ea bytes = none ↔ ∀ a ∈ bytes, s.cfg.inCode a = false := by
  simp [codeFault]

theorem cellAt_eq_ok {s : State} {a : Word} {b : Byte} : cellAt s a = .ok b ↔ s.byteAt? a = some b := by
  unfold cellAt
  cases s.byteAt? a <;> simp

/-! ### Memory accesses -/

theorem memRead1_eq_ok {s : State} {a : Word} {b : Byte} :
    memRead1 s a = .ok b ↔ s.cfg.area a = .ram ∧ s.byteAt? a = some b := by
  simp [memRead1, afterChecks_eq_ok, firstFault_cons_eq_none, areaFault_eq_none, cellAt_eq_ok]

theorem memRead2_eq_ok {s : State} {a v : Word} :
    memRead2 s a = .ok v ↔ s.cfg.area a = .ram ∧ s.cfg.area (a + 1#16) = .ram ∧
      ∃ lower higher, s.byteAt? a = some lower ∧ s.byteAt? (a + 1#16) = some higher ∧
        s.cfg.byteOrder.join lower higher = v := by
  simp only [memRead2, afterChecks_eq_ok, firstFault_cons_eq_none, areaFault_eq_none, firstFault_nil, and_true,
    and_assoc, cellAt]
  cases s.byteAt? a <;> cases s.byteAt? (a + 1#16) <;> simp

theorem loadWord_eq_ok {s : State} {ea v : Word} :
    loadWord s ea = .ok v ↔ EvenAddr ea ∧ s.cfg.inCode ea = false ∧ s.cfg.inCode (ea + 1#16) = false ∧
      memRead2 s ea = .ok v := by
  simp [loadWord, afterChecks_eq_ok, firstFault_cons_eq_none, alignmentFault_eq_none, codeFault_eq_none, and_assoc]

theorem loadByte_eq_ok {s : State} {ea : Word} {b : Byte} :
    loadByte s ea = .ok b ↔ DataByte s ea ∧ s.byteAt? ea = some b := by
  simp only [loadByte, afterChecks_eq_ok, firstFault_cons_eq_none, codeFault_eq_none, memRead1_eq_ok, DataByte,
    List.mem_singleton, forall_eq, firstFault_nil, and_true]
  tauto

theorem storeWord_eq_ok {s t : State} {ea v : Word} :
    storeWord s ea v = .ok t ↔ EvenAddr ea ∧ DataByte s ea ∧ DataByte s (ea + 1#16) ∧
      t = (s.setByte ea (s.cfg.byteOrder.lower v)).setByte (ea + 1#16) (s.cfg.byteOrder.higher v) := by
  simp only [storeWord, afterChecks_eq_ok, firstFault_cons_eq_none, alignmentFault_eq_none, codeFault_eq_none,
    areaFault_eq_none, DataByte, List.mem_cons, List.not_mem_nil, or_false, forall_eq_or_imp, forall_eq,
    firstFault_nil, and_true, Except.ok.injEq, eq_comm (a := t)]
  tauto

theorem storeByte_eq_ok {s t : State} {ea : Word} {b : Byte} :
    storeByte s ea b = .ok t ↔ DataByte s ea ∧ t = s.setByte ea b := by
  simp only [storeByte, afterChecks_eq_ok, firstFault_cons_eq_none, codeFault_eq_none, areaFault_eq_none, DataByte,
    List.mem_singleton, forall_eq, firstFault_nil, and_true, Except.ok.injEq, eq_comm (a := t)]
  tauto

theorem finishLoad_eq_next {d : Reg} {r : Except Fault Word} {s t : State} :
    finishLoad d r s = .next t ↔ ∃ v, r = .ok v ∧ writeBack d v s = .next t := by
  cases r <;> simp [finishLoad]

theorem finishStore_eq_next {r : Except Fault State} {t : State} :
    finishStore r = .next t ↔ ∃ u, r = .ok u ∧ t = u.advance := by
  cases r <;> simp [finishStore, eq_comm]

/-! ### Fetch -/

/-- A fetch that succeeds reads what a data read of the same word reads; only the order of their faults differs. -/
theorem fetchBytes_eq_ok {s : State} {a v : Word} : fetchBytes s a = .ok v ↔ memRead2 s a = .ok v := by
  rw [memRead2_eq_ok, fetchBytes]
  constructor
  · intro h
    cases hl : memRead1 s a with
    | error f => simp [hl] at h
    | ok lower =>
      cases hh : memRead1 s (a + 1#16) with
      | error f => simp [hl, hh, Except.map] at h
      | ok higher =>
        obtain ⟨h1, h2⟩ := memRead1_eq_ok.1 hl
        obtain ⟨h3, h4⟩ := memRead1_eq_ok.1 hh
        exact ⟨h1, h3, lower, higher, h2, h4, by simpa [hl, hh, Except.map] using h⟩
  · rintro ⟨h1, h3, lower, higher, h2, h4, rfl⟩
    rw [memRead1_eq_ok.2 ⟨h1, h2⟩, memRead1_eq_ok.2 ⟨h3, h4⟩]
    rfl

/-- A fetch stops at the lower byte whatever the higher one is. -/
theorem fetchBytes_eq_error_lower {s : State} {a : Word} {f : Fault} (h : memRead1 s a = .error f) :
    fetchBytes s a = .error f := by
  simp [fetchBytes, h]

/-- A fetch stops at the higher byte once the lower one is read. -/
theorem fetchBytes_eq_error_higher {s : State} {a : Word} {lower : Byte} {f : Fault} (hl : memRead1 s a = .ok lower)
    (hh : memRead1 s (a + 1#16) = .error f) : fetchBytes s a = .error f := by
  simp [fetchBytes, hl, hh, Except.map]

theorem fetchWord_eq_ok {s : State} {w : Word} :
    fetchWord s = .ok w ↔ EvenAddr s.pc ∧ s.cfg.mayFetch s.pc = true ∧ s.cfg.mayFetch (s.pc + 1#16) = true ∧
      memRead2 s s.pc = .ok w := by
  simp [fetchWord, fetchBytes_eq_ok, afterChecks_eq_ok, firstFault_cons_eq_none, fetchAlignmentFault, fetchCodeFault, EvenAddr,
    and_assoc]

theorem fetchInstr_eq_ok {s : State} {i : Instr} :
    fetchInstr s = .ok i ↔ ∃ w, fetchWord s = .ok w ∧ decode w = .ok i := by
  unfold fetchInstr
  cases fetchWord s with
  | error f => simp
  | ok w => cases h : decode w <;> simp [h]

/-- A step that goes on executes the instruction it fetched. -/
theorem step_eq_next {s t : State} : step s = .next t ↔ ∃ i, Fetches s i ∧ exec i s = .next t := by
  unfold step Fetches
  cases fetchInstr s <;> simp

/-! ### Byte order -/

@[simp] theorem ByteOrder.join_lower_higher (o : ByteOrder) (v : Word) : o.join (o.lower v) (o.higher v) = v := by
  cases o <;> (ext i hi; simp [ByteOrder.join, ByteOrder.lower, ByteOrder.higher]; grind)

theorem ByteOrder.toNat_join (o : ByteOrder) (lower higher : Byte) :
    (o.join lower higher).toNat = match o with
      | .little => 256 * higher.toNat + lower.toNat
      | .big => 256 * lower.toNat + higher.toNat := by
  have hl := lower.isLt
  have hh := higher.isLt
  cases o <;> simp only [ByteOrder.join] <;> rw [BitVec.toNat_append, ← Nat.shiftLeft_add_eq_or_of_lt (by assumption),
    Nat.shiftLeft_eq] <;> omega

/-- The two bytes of a 2-byte access are different cells. -/
theorem addr_ne_succ (a : Word) : a ≠ a + 1#16 := fun h => by
  have := congrArg BitVec.toNat h
  have := a.isLt
  simp only [BitVec.toNat_add, BitVec.toNat_ofNat] at *
  omega

end Sys2Proof.Machine
end

