-- ==== Sys2Proof/Laws/Exec.lean ====
section
/-! SUPPORT. What an instruction can do, said once: every next state of `exec` has one of seven forms. And the
completing forms of the loads and stores as equations. -/

namespace Sys2Proof.Machine

/-- The forms a next state can have, each with the entries of the tables of Safety.lean that belong to it. -/
inductive Effect (s : State) : Instr → State → Prop where
  /-- One register is written. -/
  | register (i : Instr) (d : Reg) (v : Word) : regsWritten s.cfg i = [d] → transfersControl s i = false →
      writesCarry i = false → bytesWritten s i = [] → Effect s i (s.setReg d v).advance
  /-- One register and the carry are written. -/
  | registerAndCarry (i : Instr) (d : Reg) (v : Word) (c : Bool) : regsWritten s.cfg i = [d] →
      transfersControl s i = false → writesCarry i = true → bytesWritten s i = [] →
      Effect s i ((s.setReg d v).setCarry c).advance
  /-- A jump with link. -/
  | jump (a : Reg) : Effect s (.jmpl a) ((s.setReg s.cfg.linkReg s.nextPc).setPc (s.reg a))
  /-- A branch that is taken. -/
  | taken (i : Instr) (target : Word) : regsWritten s.cfg i = [] → transfersControl s i = true →
      writesCarry i = false → bytesWritten s i = [] →
      ((∃ r a, (i = .brez r a ∨ i = .brnez r a) ∧ target = s.reg a) ∨
        (∃ r imm7, (i = .brezi r imm7 ∨ i = .brnezi r imm7) ∧ target = s.cfg.brImmTarget s.pc imm7)) →
      Effect s i (s.setPc target)
  /-- A branch that is not taken. -/
  | notTaken (i : Instr) : regsWritten s.cfg i = [] → transfersControl s i = false → writesCarry i = false →
      bytesWritten s i = [] → Effect s i s.advance
  /-- A word is stored. -/
  | word (a r : Reg) : EvenAddr (s.reg a) → DataByte s (s.reg a) → DataByte s (s.reg a + 1#16) →
      Effect s (.st a r)
        ((s.setByte (s.reg a) (s.cfg.byteOrder.lower (s.reg r))).setByte (s.reg a + 1#16)
          (s.cfg.byteOrder.higher (s.reg r))).advance
  /-- A byte is stored. -/
  | byte (a r : Reg) : DataByte s (s.reg a) → Effect s (.stb a r) (s.setByte (s.reg a) (lowByte (s.reg r))).advance

theorem branchIf_effect {i : Instr} {s t : State} {taken : Bool} {target : Word} (h : branchIf taken target s = .next t)
    (ht : transfersControl s i = taken) (hr : regsWritten s.cfg i = []) (hc : writesCarry i = false)
    (hb : bytesWritten s i = [])
    (hi : (∃ r a, (i = .brez r a ∨ i = .brnez r a) ∧ target = s.reg a) ∨
      (∃ r imm7, (i = .brezi r imm7 ∨ i = .brnezi r imm7) ∧ target = s.cfg.brImmTarget s.pc imm7)) :
    Effect s i t := by
  injection h with h
  subst h
  cases taken
  · exact .notTaken i hr ht hc hb
  · exact .taken i target hr ht hc hb hi

/-- Every next state of `exec` has one of the forms. -/
theorem exec_effect {i : Instr} {s t : State} (h : exec i s = .next t) : Effect s i t := by
  cases i
  case jmpl a =>
    injection h with h
    exact h ▸ .jump a
  case brez r a =>
    exact branchIf_effect h (Bool.eq_iff_iff.2 (by simp [transfersControl])) rfl rfl rfl (.inl ⟨r, a, .inl rfl, rfl⟩)
  case brnez r a =>
    exact branchIf_effect h (Bool.eq_iff_iff.2 (by simp [transfersControl])) rfl rfl rfl (.inl ⟨r, a, .inr rfl, rfl⟩)
  case brezi r imm7 =>
    exact branchIf_effect h (Bool.eq_iff_iff.2 (by simp [transfersControl])) rfl rfl rfl
      (.inr ⟨r, imm7, .inl rfl, rfl⟩)
  case brnezi r imm7 =>
    exact branchIf_effect h (Bool.eq_iff_iff.2 (by simp [transfersControl])) rfl rfl rfl
      (.inr ⟨r, imm7, .inr rfl, rfl⟩)
  case add => injection h with h; exact h ▸ .registerAndCarry _ _ _ _ rfl rfl rfl rfl
  case addc => injection h with h; exact h ▸ .registerAndCarry _ _ _ _ rfl rfl rfl rfl
  case sub => injection h with h; exact h ▸ .registerAndCarry _ _ _ _ rfl rfl rfl rfl
  case subc => injection h with h; exact h ▸ .registerAndCarry _ _ _ _ rfl rfl rfl rfl
  case ld =>
    obtain ⟨v, -, h⟩ := finishLoad_eq_next.1 h
    injection h with h
    exact h ▸ .register _ _ _ rfl rfl rfl rfl
  case ldb =>
    obtain ⟨v, -, h⟩ := finishLoad_eq_next.1 h
    injection h with h
    exact h ▸ .register _ _ _ rfl rfl rfl rfl
  case st a r =>
    obtain ⟨u, hu, rfl⟩ := finishStore_eq_next.1 h
    obtain ⟨he, h1, h2, rfl⟩ := storeWord_eq_ok.1 hu
    exact .word a r he h1 h2
  case stb a r =>
    obtain ⟨u, hu, rfl⟩ := finishStore_eq_next.1 h
    obtain ⟨h1, rfl⟩ := storeByte_eq_ok.1 hu
    exact .byte a r h1
  all_goals
    injection h with h
    exact h ▸ .register _ _ _ rfl rfl rfl rfl

/-! ### Loads and stores that complete -/

theorem exec_ld_eq {s : State} {d a : Reg} {lower higher : Byte} (he : EvenAddr (s.reg a))
    (h1 : DataByte s (s.reg a)) (h2 : DataByte s (s.reg a + 1#16)) (hl : s.byteAt? (s.reg a) = some lower)
    (hh : s.byteAt? (s.reg a + 1#16) = some higher) :
    exec (.ld d a) s = writeBack d (s.cfg.byteOrder.join lower higher) s :=
  finishLoad_eq_next.2 ⟨_, loadWord_eq_ok.2 ⟨he, h1.2, h2.2,
    memRead2_eq_ok.2 ⟨h1.1, h2.1, lower, higher, hl, hh, rfl⟩⟩, rfl⟩

theorem exec_ldb_eq {s : State} {d a : Reg} {b : Byte} (h : DataByte s (s.reg a)) (hb : s.byteAt? (s.reg a) = some b) :
    exec (.ldb d a) s = writeBack d (widenByte s.cfg.ldbExtend b) s :=
  finishLoad_eq_next.2 ⟨_, by rw [loadByte_eq_ok.2 ⟨h, hb⟩]; rfl, rfl⟩

theorem exec_st_eq {s : State} {a r : Reg} (he : EvenAddr (s.reg a)) (h1 : DataByte s (s.reg a))
    (h2 : DataByte s (s.reg a + 1#16)) :
    exec (.st a r) s = .next ((s.setByte (s.reg a) (s.cfg.byteOrder.lower (s.reg r))).setByte (s.reg a + 1#16)
      (s.cfg.byteOrder.higher (s.reg r))).advance :=
  finishStore_eq_next.2 ⟨_, storeWord_eq_ok.2 ⟨he, h1, h2, rfl⟩, rfl⟩

theorem exec_stb_eq {s : State} {a r : Reg} (h : DataByte s (s.reg a)) :
    exec (.stb a r) s = .next (s.setByte (s.reg a) (lowByte (s.reg r))).advance :=
  finishStore_eq_next.2 ⟨_, storeByte_eq_ok.2 ⟨h, rfl⟩, rfl⟩

/-! ### Updates of one register, in either order -/

theorem State.setReg_setReg (s : State) (d : Reg) (v w : Word) : (s.setReg d v).setReg d w = s.setReg d w :=
  State.ext_of rfl (fun r => by simp only [State.setReg_reg]; split_ifs <;> rfl) rfl rfl rfl

theorem State.setReg_comm (s : State) {q d : Reg} (h : q ≠ d) (v w : Word) :
    (s.setReg q v).setReg d w = (s.setReg d w).setReg q v :=
  State.ext_of rfl (fun r => by simp only [State.setReg_reg]; split_ifs <;> simp_all) rfl rfl rfl

end Sys2Proof.Machine
end

