-- ==== Sys2Proof/Laws/Fields.lean ====
section
/-! SUPPORT. The fields of a word written as the patterns of 30_encoding.md R57, and the rows that are selected by
fewer than six bits. -/

namespace Sys2Proof

@[simp] theorem regOfBits_regBits (r : Reg) : regOfBits (regBits r) = r := rfl
@[simp] theorem regBits_regOfBits (b : BitVec 5) : regBits (regOfBits b) = b := rfl

theorem extractLsb'_of_getLsbD {n : Nat} {w : Word} {start : Nat} {v : BitVec n}
    (h : ∀ k, k < n → w.getLsbD (start + k) = v.getLsbD k) : w.extractLsb' start n = v :=
  BitVec.eq_of_getLsbD_eq fun k hk => by simp [hk, h k hk]

/-! ### A 6-bit opcode and two 5-bit fields -/

section
variable (op : BitVec 6) (x y : BitVec 5)

theorem op6_pattern : op6 (op ++ x ++ y) = op :=
  extractLsb'_of_getLsbD fun k _ => by grind
theorem regHigh_pattern : regHigh (op ++ x ++ y) = regOfBits x :=
  congrArg regOfBits (extractLsb'_of_getLsbD fun k _ => by grind)
theorem regLow_pattern : regLow (op ++ x ++ y) = regOfBits y :=
  congrArg regOfBits (extractLsb'_of_getLsbD fun k _ => by grind)
theorem imm5Of_pattern : imm5Of (op ++ x ++ y) = x :=
  extractLsb'_of_getLsbD fun k _ => by grind
end

/-! ### A 6-bit opcode, a selector bit, a 4-bit number and a register -/

section
variable (op : BitVec 6) (x : BitVec 1) (n : BitVec 4) (y : BitVec 5)

theorem op6_pattern' : op6 (op ++ x ++ n ++ y) = op :=
  extractLsb'_of_getLsbD fun k _ => by grind
theorem bit9_pattern : (op ++ x ++ n ++ y).getLsbD 9 = x.getLsbD 0 := by grind
theorem imm4Of_pattern : imm4Of (op ++ x ++ n ++ y) = n.toNat :=
  congrArg BitVec.toNat (extractLsb'_of_getLsbD fun k _ => by grind)
theorem regLow_pattern' : regLow (op ++ x ++ n ++ y) = regOfBits y :=
  congrArg regOfBits (extractLsb'_of_getLsbD fun k _ => by grind)
end

/-! ### The 4-bit and the 3-bit opcodes -/

section
variable (op : BitVec 4) (imm7 : BitVec 7) (y : BitVec 5)

theorem op6_pattern7 : op6 (op ++ imm7 ++ y) = op ++ imm7.extractLsb' 5 2 :=
  extractLsb'_of_getLsbD fun k _ => by grind
theorem imm7Of_pattern : imm7Of (op ++ imm7 ++ y) = imm7 :=
  extractLsb'_of_getLsbD fun k _ => by grind
theorem regLow_pattern7 : regLow (op ++ imm7 ++ y) = regOfBits y :=
  congrArg regOfBits (extractLsb'_of_getLsbD fun k _ => by grind)
end

section
variable (op : BitVec 3) (imm8 : BitVec 8) (y : BitVec 5)

theorem op6_pattern8 : op6 (op ++ imm8 ++ y) = op ++ imm8.extractLsb' 5 3 :=
  extractLsb'_of_getLsbD fun k _ => by grind
theorem imm8Of_pattern : imm8Of (op ++ imm8 ++ y) = imm8 :=
  extractLsb'_of_getLsbD fun k _ => by grind
theorem regLow_pattern8 : regLow (op ++ imm8 ++ y) = regOfBits y :=
  congrArg regOfBits (extractLsb'_of_getLsbD fun k _ => by grind)
end

/-! ### The rows that several values of `op6` select -/

theorem decode_of_op6_lt_8 {w : Word} (h : (op6 w).toNat < 0x08) : decode w = .ok (.ldi (regLow w) (imm8Of w)) := by
  unfold decode
  interval_cases (op6 w).toNat <;> rfl

theorem decode_of_op6_brezi {w : Word} (h : 0x10 ≤ (op6 w).toNat) (h' : (op6 w).toNat < 0x14) :
    decode w = .ok (.brezi (regLow w) (imm7Of w)) := by
  unfold decode
  interval_cases (op6 w).toNat <;> rfl

theorem decode_of_op6_brnezi {w : Word} (h : 0x14 ≤ (op6 w).toNat) (h' : (op6 w).toNat < 0x18) :
    decode w = .ok (.brnezi (regLow w) (imm7Of w)) := by
  unfold decode
  interval_cases (op6 w).toNat <;> rfl

theorem decode_of_op6_addi {w : Word} (h : 0x18 ≤ (op6 w).toNat) (h' : (op6 w).toNat < 0x1C) :
    decode w = .ok (.addi (regLow w) (imm7Of w)) := by
  unfold decode
  interval_cases (op6 w).toNat <;> rfl

theorem decode_of_op6_muli {w : Word} (h : 0x1C ≤ (op6 w).toNat) (h' : (op6 w).toNat < 0x20) :
    decode w = .ok (.muli (regLow w) (imm7Of w)) := by
  unfold decode
  interval_cases (op6 w).toNat <;> rfl

end Sys2Proof
end

