-- ==== Sys2Proof/Laws/Parameters.lean ====
section
/-! SUPPORT. The plain data of `Config` expresses every parameter function of the spec's type (00_scope.md R4), so
quantifying over configurations quantifies over all of them. -/

namespace Sys2Proof

theorem exceptionAt_map (f : Word → BitVec 7 → Word) (pc : Word) (imm7 : BitVec 7) (args : List (Word × BitVec 7))
    (h : (pc, imm7) ∈ args) :
    exceptionAt (args.map fun p => ⟨p.1, p.2, f p.1 p.2⟩) pc imm7 = some (f pc imm7) := by
  induction args with
  | nil => simp at h
  | cons p rest ih =>
    simp only [List.map_cons, exceptionAt]
    split_ifs with hp
    · rw [hp.1, hp.2]
    · refine ih ?_
      rcases List.mem_cons.1 h with rfl | h
      · exact absurd ⟨rfl, rfl⟩ hp
      · exact h

/-- Every function is some configuration's `cfg.BR_IMM_TARGET`. -/
theorem brImmTarget_surjective (cfg : Config) (f : Word → BitVec 7 → Word) :
    ∃ rule, ∀ pc imm7, ({ cfg with brImm := rule } : Config).brImmTarget pc imm7 = f pc imm7 := by
  refine ⟨{ BranchRule.reference with
    exceptions := (Finset.univ : Finset (Word × BitVec 7)).toList.map fun p => ⟨p.1, p.2, f p.1 p.2⟩ },
    fun pc imm7 => ?_⟩
  rw [Config.brImmTarget, exceptionAt_map f pc imm7 _ (Finset.mem_toList.2 (Finset.mem_univ _)), Option.getD_some]

theorem areaIn_map (f : Word → Area) (a : Word) (args : List Word) (h : a ∈ args) :
    areaIn (args.map fun w => ⟨⟨w.toNat, 1⟩, f w⟩) a = f a := by
  induction args with
  | nil => simp at h
  | cons w rest ih =>
    simp only [List.map_cons, areaIn, Span.holds, decide_eq_true_eq]
    split_ifs with hw
    · have : w = a := BitVec.eq_of_toNat_eq (by omega)
      rw [this]
    · refine ih ?_
      rcases List.mem_cons.1 h with rfl | h
      · exact absurd ⟨le_refl _, Nat.lt_succ_self _⟩ hw
      · exact h

/-- Every function is some configuration's `cfg.MEM_MAP`. -/
theorem area_surjective (cfg : Config) (f : Word → Area) :
    ∃ regions, ∀ a, ({ cfg with memMap := regions } : Config).area a = f a :=
  ⟨(Finset.univ : Finset Word).toList.map fun (w : Word) => (⟨⟨w.toNat, 1⟩, f w⟩ : Region), fun a =>
    areaIn_map f a _ (Finset.mem_toList.2 (Finset.mem_univ a))⟩

/-- Every set of addresses is some configuration's `cfg.CODE`. -/
theorem inCode_surjective (cfg : Config) (p : Word → Bool) :
    ∃ spans, ∀ a, ({ cfg with code := some spans } : Config).inCode a = p a := by
  refine ⟨((Finset.univ : Finset Word).toList.filter p).map fun w => ⟨w.toNat, 1⟩, fun a => ?_⟩
  rw [Bool.eq_iff_iff]
  simp only [Config.inCode, Option.getD_some, List.any_map, List.any_eq_true, List.mem_filter,
    Finset.mem_toList, Finset.mem_univ, true_and, Function.comp, Span.holds, decide_eq_true_eq]
  refine ⟨fun ⟨w, hw, ha⟩ => ?_, fun ha => ⟨a, ha, le_refl _, Nat.lt_succ_self _⟩⟩
  have : w = a := BitVec.eq_of_toNat_eq (by omega)
  exact this ▸ hw

/-- The reference instantiation of R115, as its formula reads. -/
theorem reference_brImmTarget (pc : Word) (imm7 : BitVec 7) :
    Config.reference.brImmTarget pc imm7 = pc + 2#16 * imm7.signExtend 16 := rfl

end Sys2Proof
end

