-- ==== Sys2Proof/Laws/PerInstr.lean ====
section
/-! SUPPORT. Per instruction: the word the encoder writes is selected by the instruction's own row of the opcode table
(30_encoding.md R57). -/

namespace Sys2Proof.Laws

theorem and_mask6 (op : BitVec 6) (x y : BitVec 5) : (op ++ x ++ y) &&& 0xFC00#16 = op ++ 0b00000#5 ++ 0b00000#5 :=
  BitVec.eq_of_getLsbD_eq fun k hk => by interval_cases k <;> simp <;> grind

theorem and_mask6' (op : BitVec 6) (x : BitVec 1) (n : BitVec 4) (y : BitVec 5) :
    (op ++ x ++ n ++ y) &&& 0xFC00#16 = op ++ 0b00000#5 ++ 0b00000#5 :=
  BitVec.eq_of_getLsbD_eq fun k hk => by interval_cases k <;> simp <;> grind

theorem and_mask4 (op : BitVec 4) (x : BitVec 7) (y : BitVec 5) :
    (op ++ x ++ y) &&& 0xF000#16 = op ++ 0b0000000#7 ++ 0b00000#5 :=
  BitVec.eq_of_getLsbD_eq fun k hk => by interval_cases k <;> simp <;> grind

theorem and_mask3 (op : BitVec 3) (x : BitVec 8) (y : BitVec 5) :
    (op ++ x ++ y) &&& 0xE000#16 = op ++ 0b00000000#8 ++ 0b00000#5 :=
  BitVec.eq_of_getLsbD_eq fun k hk => by interval_cases k <;> simp <;> grind

/-- The encoder's word is of the instruction's own row. -/
def EncodeMatchesTable.Statement (i : Instr) : Prop :=
  ∃ row ∈ opcodeTable, row.mnemonic = i.mnemonic ∧ row.selects (encode i) = true

/-- The row with a mnemonic, pattern and mask is in the table and selects the word. -/
theorem EncodeMatchesTable.of_row {i : Instr} (row : OpcodeRow) (hm : row ∈ opcodeTable)
    (hn : row.mnemonic = i.mnemonic) (hw : encode i &&& row.mask = row.pattern) :
    EncodeMatchesTable.Statement i := ⟨row, hm, hn, by simp [OpcodeRow.selects, hw]⟩

theorem EncodeMatchesTable.ldi (d : Reg) (imm8 : BitVec 8) : EncodeMatchesTable.Statement (.ldi d imm8) :=
  EncodeMatchesTable.of_row ⟨"ldi", 0x0000#16, 0xE000#16⟩ (by decide) rfl (and_mask3 _ _ _)

theorem EncodeMatchesTable.jmpl (a : Reg) : EncodeMatchesTable.Statement (.jmpl a) :=
  EncodeMatchesTable.of_row ⟨"jmpl", 0x3400#16, 0xFC00#16⟩ (by decide) rfl (and_mask6 _ _ _)

theorem EncodeMatchesTable.brez (s a : Reg) : EncodeMatchesTable.Statement (.brez s a) :=
  EncodeMatchesTable.of_row ⟨"brez", 0x3800#16, 0xFC00#16⟩ (by decide) rfl (and_mask6 _ _ _)

theorem EncodeMatchesTable.brnez (s a : Reg) : EncodeMatchesTable.Statement (.brnez s a) :=
  EncodeMatchesTable.of_row ⟨"brnez", 0x3C00#16, 0xFC00#16⟩ (by decide) rfl (and_mask6 _ _ _)

theorem EncodeMatchesTable.brezi (s : Reg) (imm7 : BitVec 7) : EncodeMatchesTable.Statement (.brezi s imm7) :=
  EncodeMatchesTable.of_row ⟨"brezi", 0x4000#16, 0xF000#16⟩ (by decide) rfl (and_mask4 _ _ _)

theorem EncodeMatchesTable.brnezi (s : Reg) (imm7 : BitVec 7) : EncodeMatchesTable.Statement (.brnezi s imm7) :=
  EncodeMatchesTable.of_row ⟨"brnezi", 0x5000#16, 0xF000#16⟩ (by decide) rfl (and_mask4 _ _ _)

theorem EncodeMatchesTable.addi (d : Reg) (imm7 : BitVec 7) : EncodeMatchesTable.Statement (.addi d imm7) :=
  EncodeMatchesTable.of_row ⟨"addi", 0x6000#16, 0xF000#16⟩ (by decide) rfl (and_mask4 _ _ _)

theorem EncodeMatchesTable.muli (d : Reg) (imm7 : BitVec 7) : EncodeMatchesTable.Statement (.muli d imm7) :=
  EncodeMatchesTable.of_row ⟨"muli", 0x7000#16, 0xF000#16⟩ (by decide) rfl (and_mask4 _ _ _)

theorem EncodeMatchesTable.add (d s : Reg) : EncodeMatchesTable.Statement (.add d s) :=
  EncodeMatchesTable.of_row ⟨"add", 0x8000#16, 0xFC00#16⟩ (by decide) rfl (and_mask6 _ _ _)

theorem EncodeMatchesTable.addc (d s : Reg) : EncodeMatchesTable.Statement (.addc d s) :=
  EncodeMatchesTable.of_row ⟨"addc", 0x8400#16, 0xFC00#16⟩ (by decide) rfl (and_mask6 _ _ _)

theorem EncodeMatchesTable.sub (d s : Reg) : EncodeMatchesTable.Statement (.sub d s) :=
  EncodeMatchesTable.of_row ⟨"sub", 0x8800#16, 0xFC00#16⟩ (by decide) rfl (and_mask6 _ _ _)

theorem EncodeMatchesTable.subc (d s : Reg) : EncodeMatchesTable.Statement (.subc d s) :=
  EncodeMatchesTable.of_row ⟨"subc", 0x8C00#16, 0xFC00#16⟩ (by decide) rfl (and_mask6 _ _ _)

theorem EncodeMatchesTable.mul (d s : Reg) : EncodeMatchesTable.Statement (.mul d s) :=
  EncodeMatchesTable.of_row ⟨"mul", 0x9000#16, 0xFC00#16⟩ (by decide) rfl (and_mask6 _ _ _)

theorem EncodeMatchesTable.mulu (d s : Reg) : EncodeMatchesTable.Statement (.mulu d s) :=
  EncodeMatchesTable.of_row ⟨"mulu", 0x9400#16, 0xFC00#16⟩ (by decide) rfl (and_mask6 _ _ _)

theorem EncodeMatchesTable.mulh (d s : Reg) : EncodeMatchesTable.Statement (.mulh d s) :=
  EncodeMatchesTable.of_row ⟨"mulh", 0x9800#16, 0xFC00#16⟩ (by decide) rfl (and_mask6 _ _ _)

theorem EncodeMatchesTable.mulhu (d s : Reg) : EncodeMatchesTable.Statement (.mulhu d s) :=
  EncodeMatchesTable.of_row ⟨"mulhu", 0x9C00#16, 0xFC00#16⟩ (by decide) rfl (and_mask6 _ _ _)

theorem EncodeMatchesTable.or (d s : Reg) : EncodeMatchesTable.Statement (.or d s) :=
  EncodeMatchesTable.of_row ⟨"or", 0xA000#16, 0xFC00#16⟩ (by decide) rfl (and_mask6 _ _ _)

theorem EncodeMatchesTable.and (d s : Reg) : EncodeMatchesTable.Statement (.and d s) :=
  EncodeMatchesTable.of_row ⟨"and", 0xA400#16, 0xFC00#16⟩ (by decide) rfl (and_mask6 _ _ _)

theorem EncodeMatchesTable.xor (d s : Reg) : EncodeMatchesTable.Statement (.xor d s) :=
  EncodeMatchesTable.of_row ⟨"xor", 0xA800#16, 0xFC00#16⟩ (by decide) rfl (and_mask6 _ _ _)

theorem EncodeMatchesTable.not (d : Reg) : EncodeMatchesTable.Statement (.not d) :=
  EncodeMatchesTable.of_row ⟨"not", 0xAC00#16, 0xFC00#16⟩ (by decide) rfl (and_mask6 _ _ _)

theorem EncodeMatchesTable.neg (d : Reg) : EncodeMatchesTable.Statement (.neg d) :=
  EncodeMatchesTable.of_row ⟨"neg", 0xB000#16, 0xFC00#16⟩ (by decide) rfl (and_mask6 _ _ _)

theorem EncodeMatchesTable.asr (d : Reg) : EncodeMatchesTable.Statement (.asr d) :=
  EncodeMatchesTable.of_row ⟨"asr", 0xB400#16, 0xFC00#16⟩ (by decide) rfl (and_mask6 _ _ _)

theorem EncodeMatchesTable.lsl (d : Reg) : EncodeMatchesTable.Statement (.lsl d) :=
  EncodeMatchesTable.of_row ⟨"lsl", 0xB800#16, 0xFC00#16⟩ (by decide) rfl (and_mask6 _ _ _)

theorem EncodeMatchesTable.lsr (d : Reg) : EncodeMatchesTable.Statement (.lsr d) :=
  EncodeMatchesTable.of_row ⟨"lsr", 0xBC00#16, 0xFC00#16⟩ (by decide) rfl (and_mask6 _ _ _)

theorem EncodeMatchesTable.lsli (d : Reg) (distance : Nat) : EncodeMatchesTable.Statement (.lsli d distance) :=
  EncodeMatchesTable.of_row ⟨"lsli", 0xC000#16, 0xFC00#16⟩ (by decide) rfl (and_mask6' _ _ _ _)

theorem EncodeMatchesTable.lsri (d : Reg) (distance : Nat) : EncodeMatchesTable.Statement (.lsri d distance) :=
  EncodeMatchesTable.of_row ⟨"lsri", 0xC400#16, 0xFC00#16⟩ (by decide) rfl (and_mask6' _ _ _ _)

theorem EncodeMatchesTable.scb (d : Reg) (op : BitOp) (position : Nat) : EncodeMatchesTable.Statement (.scb d op position) :=
  EncodeMatchesTable.of_row ⟨"scb", 0xC800#16, 0xFC00#16⟩ (by decide) rfl (by cases op <;> exact and_mask6' _ _ _ _)

theorem EncodeMatchesTable.roti (d : Reg) (dir : Direction) (distance : Nat) : EncodeMatchesTable.Statement (.roti d dir distance) :=
  EncodeMatchesTable.of_row ⟨"roti", 0xCC00#16, 0xFC00#16⟩ (by decide) rfl (by cases dir <;> exact and_mask6' _ _ _ _)

theorem EncodeMatchesTable.cmplt (d s : Reg) : EncodeMatchesTable.Statement (.cmplt d s) :=
  EncodeMatchesTable.of_row ⟨"cmplt", 0xD400#16, 0xFC00#16⟩ (by decide) rfl (and_mask6 _ _ _)

theorem EncodeMatchesTable.cmpltu (d s : Reg) : EncodeMatchesTable.Statement (.cmpltu d s) :=
  EncodeMatchesTable.of_row ⟨"cmpltu", 0xD800#16, 0xFC00#16⟩ (by decide) rfl (and_mask6 _ _ _)

theorem EncodeMatchesTable.cmplte (d s : Reg) : EncodeMatchesTable.Statement (.cmplte d s) :=
  EncodeMatchesTable.of_row ⟨"cmplte", 0xDC00#16, 0xFC00#16⟩ (by decide) rfl (and_mask6 _ _ _)

theorem EncodeMatchesTable.cmplteu (d s : Reg) : EncodeMatchesTable.Statement (.cmplteu d s) :=
  EncodeMatchesTable.of_row ⟨"cmplteu", 0xE000#16, 0xFC00#16⟩ (by decide) rfl (and_mask6 _ _ _)

theorem EncodeMatchesTable.cmpe (d s : Reg) : EncodeMatchesTable.Statement (.cmpe d s) :=
  EncodeMatchesTable.of_row ⟨"cmpe", 0xE400#16, 0xFC00#16⟩ (by decide) rfl (and_mask6 _ _ _)

theorem EncodeMatchesTable.cmpei (d : Reg) (imm5 : BitVec 5) : EncodeMatchesTable.Statement (.cmpei d imm5) :=
  EncodeMatchesTable.of_row ⟨"cmpei", 0xE800#16, 0xFC00#16⟩ (by decide) rfl (and_mask6 _ _ _)

theorem EncodeMatchesTable.mov (d s : Reg) : EncodeMatchesTable.Statement (.mov d s) :=
  EncodeMatchesTable.of_row ⟨"mov", 0xEC00#16, 0xFC00#16⟩ (by decide) rfl (and_mask6 _ _ _)

theorem EncodeMatchesTable.ld (d a : Reg) : EncodeMatchesTable.Statement (.ld d a) :=
  EncodeMatchesTable.of_row ⟨"ld", 0xF000#16, 0xFC00#16⟩ (by decide) rfl (and_mask6 _ _ _)

theorem EncodeMatchesTable.ldb (d a : Reg) : EncodeMatchesTable.Statement (.ldb d a) :=
  EncodeMatchesTable.of_row ⟨"ldb", 0xF400#16, 0xFC00#16⟩ (by decide) rfl (and_mask6 _ _ _)

theorem EncodeMatchesTable.st (a s : Reg) : EncodeMatchesTable.Statement (.st a s) :=
  EncodeMatchesTable.of_row ⟨"st", 0xF800#16, 0xFC00#16⟩ (by decide) rfl (and_mask6 _ _ _)

theorem EncodeMatchesTable.stb (a s : Reg) : EncodeMatchesTable.Statement (.stb a s) :=
  EncodeMatchesTable.of_row ⟨"stb", 0xFC00#16, 0xFC00#16⟩ (by decide) rfl (and_mask6 _ _ _)

end Sys2Proof.Laws
end

