-- ==== Sys2Proof/Tests/Slice0.lean ====
section
/-! SUPPORT. The model's own tests: what well-formedness refuses, words written out from 30_encoding.md R57, vectors of
95_test_vectors.md (their ids are in the docstrings), and for every obligation with hypotheses a state and operands
that meet all of them. Every expected value is printed in the spec, or computed by hand from the rule named. -/

namespace Sys2Proof.Tests
open Sys2Proof.Machine

/-! ### Helpers -/

/-- A state of the vectors: pc 0x0100, the registers, carry and memory given, the rest as after reset. -/
def start (regs : List (Reg × Word)) (c : Bool := false) (mem : Memory := []) (cfg : Config := Config.reference) :
    State :=
  regs.foldl (fun s p => s.setReg p.1 p.2) { State.resetFor cfg with pc := 0x0100#16, c := c, mem := mem }

/-- One step from a state with a word placed at its pc. -/
def run (s : State) (w : Nat) : Result := step (s.withFetchWord 16 w)

/-- What a next state shows. -/
def observe {α : Type} (r : Result) (f : State → α) : Option α :=
  match r with
  | .next t => some (f t)
  | .fault _ => none
  | .refused _ => none

/-- The fault a step ends in. -/
def faultOf (r : Result) : Option Fault :=
  match r with
  | .next _ => none
  | .fault f => some f
  | .refused _ => none

/-- The reference configuration with the bytes of one word at 0x0100 as `cfg.CODE` (R44). -/
def guarded : Config := { Config.reference with code := some [{ base := 0x0100, size := 2 }] }

/-- The reference configuration with an unmapped stretch and a device. -/
def mapped : Config :=
  { Config.reference with
    memMap := [⟨{ base := 0x0300, size := 2 }, .unmapped⟩, ⟨{ base := 0x0400, size := 2 }, .device⟩,
      ⟨{ base := 0x0501, size := 1 }, .unmapped⟩, ⟨{ base := 0x0601, size := 1 }, .device⟩] }

/-- A branch rule that counts bytes. -/
def byteBranch : Config := { Config.reference with brImm := { BranchRule.reference with unit := .byte } }

def signExtending : Config := { Config.reference with ldbExtend := .sign }

def bigEndian : Config := { Config.reference with byteOrder := .big }

/-! ### Well-formedness: an ill-formed term for each check -/

theorem test_wf_lsli_refused : (Instr.lsli 1 16).wf = false := by decide
theorem test_wf_lsri_refused : (Instr.lsri 1 16).wf = false := by decide
theorem test_wf_scb_refused : (Instr.scb 1 .set 16).wf = false := by decide
theorem test_wf_roti_refused : (Instr.roti 1 .left 16).wf = false := by decide
theorem test_wf_span_refused : Span.wf { base := 65535, size := 2 } = false := by decide
theorem test_wf_resetPc_refused : Config.wf { Config.reference with resetPc := 0x0001#16 } = false := by decide
theorem test_wf_memMap_refused :
    Config.wf { Config.reference with memMap := [⟨{ base := 65535, size := 2 }, .device⟩] } = false := by decide
theorem test_wf_code_refused :
    Config.wf { Config.reference with code := some [{ base := 0, size := 65537 }] } = false := by decide
theorem test_wf_memory_refused : ¬ Memory.wf [(5, 0#8), (5, 1#8)] ∧ ¬ Memory.wf [(65536, 0#8)] := by decide
theorem test_wf_accepts : Config.reference.wf = true ∧ mapped.wf = true ∧ guarded.wf = true ∧ State.reset.wf := by
  unfold State.wf
  decide

/-! ### Decoding: words written out bit by bit (E1 to E39 of 95_test_vectors.md section 2) -/

theorem test_decode_load_immediate :
    decode 0b0001010101010101#16 = .ok (.ldi 21 0xAA#8) := by decide

theorem test_decode_control_transfer :
    decode 0b0011010101000000#16 = .ok (.jmpl 10) ∧
    decode 0b0011100101010101#16 = .ok (.brez 21 10) ∧
    decode 0b0011111010101010#16 = .ok (.brnez 10 21) ∧
    decode 0b0100010101010101#16 = .ok (.brezi 21 0x2A#7) ∧
    decode 0b0101101010101010#16 = .ok (.brnezi 10 0x55#7) := by decide

theorem test_decode_arithmetic :
    decode 0b0110010101010101#16 = .ok (.addi 21 0x2A#7) ∧
    decode 0b0111101010101010#16 = .ok (.muli 10 0x55#7) ∧
    decode 0b1000000101010101#16 = .ok (.add 21 10) ∧
    decode 0b1000011010101010#16 = .ok (.addc 10 21) ∧
    decode 0b1000100101010101#16 = .ok (.sub 21 10) ∧
    decode 0b1000111010101010#16 = .ok (.subc 10 21) ∧
    decode 0b1001000101010101#16 = .ok (.mul 21 10) ∧
    decode 0b1001011010101010#16 = .ok (.mulu 10 21) ∧
    decode 0b1001100101010101#16 = .ok (.mulh 21 10) ∧
    decode 0b1001111010101010#16 = .ok (.mulhu 10 21) := by decide

theorem test_decode_logic :
    decode 0b1010000101010101#16 = .ok (.or 21 10) ∧
    decode 0b1010011010101010#16 = .ok (.and 10 21) ∧
    decode 0b1010100101010101#16 = .ok (.xor 21 10) ∧
    decode 0b1010110000010101#16 = .ok (.not 21) ∧
    decode 0b1011000000001010#16 = .ok (.neg 10) := by decide

theorem test_decode_shift :
    decode 0b1011010000010101#16 = .ok (.asr 21) ∧
    decode 0b1011100000001010#16 = .ok (.lsl 10) ∧
    decode 0b1011110000010101#16 = .ok (.lsr 21) ∧
    decode 0b1100000010101010#16 = .ok (.lsli 10 5) ∧
    decode 0b1100010101010101#16 = .ok (.lsri 21 10) ∧
    decode 0b1100101010101010#16 = .ok (.scb 10 .set 5) ∧
    decode 0b1100110101010101#16 = .ok (.roti 21 .left 10) := by decide

theorem test_decode_compare :
    decode 0b1101010101010101#16 = .ok (.cmplt 21 10) ∧
    decode 0b1101101010101010#16 = .ok (.cmpltu 10 21) ∧
    decode 0b1101110101010101#16 = .ok (.cmplte 21 10) ∧
    decode 0b1110001010101010#16 = .ok (.cmplteu 10 21) ∧
    decode 0b1110010101010101#16 = .ok (.cmpe 21 10) ∧
    decode 0b1110101010101010#16 = .ok (.cmpei 10 0x15#5) ∧
    decode 0b1110110101010101#16 = .ok (.mov 21 10) := by decide

theorem test_decode_load_store :
    decode 0b1111000101010101#16 = .ok (.ld 21 10) ∧
    decode 0b1111011010101010#16 = .ok (.ldb 10 21) ∧
    decode 0b1111100101010101#16 = .ok (.st 10 21) ∧
    decode 0b1111111010101010#16 = .ok (.stb 21 10) := by decide

/-- E40, E41, E46 to E51, E56, E57, E60 to E62. -/
theorem test_decode_boundaries :
    decode 0x0000#16 = .ok (.ldi 0 0x0#8) ∧
    decode 0x1FFF#16 = .ok (.ldi 31 0xFF#8) ∧
    decode 0x3FFF#16 = .ok (.brnez 31 31) ∧
    decode 0x4000#16 = .ok (.brezi 0 0x0#7) ∧
    decode 0x4FFF#16 = .ok (.brezi 31 0x7F#7) ∧
    decode 0x5800#16 = .ok (.brnezi 0 0x40#7) ∧
    decode 0x67E0#16 = .ok (.addi 0 0x3F#7) ∧
    decode 0x7FFF#16 = .ok (.muli 31 0x7F#7) ∧
    decode 0xCBFF#16 = .ok (.scb 31 .set 15) ∧
    decode 0xCFFF#16 = .ok (.roti 31 .right 15) ∧
    decode 0xD400#16 = .ok (.cmplt 0 0) ∧
    decode 0xEA00#16 = .ok (.cmpei 0 0x10#5) ∧
    decode 0xFFFF#16 = .ok (.stb 31 31) := by decide

/-- E45, E52 to E55: the ignored bits of R58. -/
theorem test_decode_ignored_bits :
    decode 0x341F#16 = .ok (.jmpl 0) ∧
    decode 0xAFE1#16 = .ok (.not 1) ∧
    decode 0xB3FF#16 = .ok (.neg 31) ∧
    decode 0xC301#16 = .ok (.lsli 1 8) ∧
    decode 0xC7FF#16 = .ok (.lsri 31 15) := by decide

/-- E42, E43, E58, E59: R59. -/
theorem test_decode_unassigned :
    decode 0x2000#16 = .error (.unassignedOpcode 0x2000#16) ∧
    decode 0x33FF#16 = .error (.unassignedOpcode 0x33FF#16) ∧
    decode 0xD000#16 = .error (.unassignedOpcode 0xD000#16) ∧
    decode 0xD3FF#16 = .error (.unassignedOpcode 0xD3FF#16) := by decide

/-- E1 to E39 the other way. -/
theorem test_encode_words :
    [encode (.ldi 21 0xAA#8),
      encode (.jmpl 10),
      encode (.brez 21 10),
      encode (.brnez 10 21),
      encode (.brezi 21 0x2A#7),
      encode (.brnezi 10 0x55#7),
      encode (.addi 21 0x2A#7),
      encode (.muli 10 0x55#7),
      encode (.add 21 10),
      encode (.addc 10 21),
      encode (.sub 21 10),
      encode (.subc 10 21),
      encode (.mul 21 10),
      encode (.mulu 10 21),
      encode (.mulh 21 10),
      encode (.mulhu 10 21),
      encode (.or 21 10),
      encode (.and 10 21),
      encode (.xor 21 10),
      encode (.not 21),
      encode (.neg 10),
      encode (.asr 21),
      encode (.lsl 10),
      encode (.lsr 21),
      encode (.lsli 10 5),
      encode (.lsri 21 10),
      encode (.scb 10 .set 5),
      encode (.roti 21 .left 10),
      encode (.cmplt 21 10),
      encode (.cmpltu 10 21),
      encode (.cmplte 21 10),
      encode (.cmplteu 10 21),
      encode (.cmpe 21 10),
      encode (.cmpei 10 0x15#5),
      encode (.mov 21 10),
      encode (.ld 21 10),
      encode (.ldb 10 21),
      encode (.st 10 21),
      encode (.stb 21 10)] =
    [0x1555#16, 0x3540#16, 0x3955#16, 0x3EAA#16, 0x4555#16, 0x5AAA#16, 0x6555#16, 0x7AAA#16, 0x8155#16, 0x86AA#16,
      0x8955#16, 0x8EAA#16, 0x9155#16, 0x96AA#16, 0x9955#16, 0x9EAA#16, 0xA155#16, 0xA6AA#16, 0xA955#16, 0xAC15#16,
      0xB00A#16, 0xB415#16, 0xB80A#16, 0xBC15#16, 0xC0AA#16, 0xC555#16, 0xCAAA#16, 0xCD55#16, 0xD555#16, 0xDAAA#16,
      0xDD55#16, 0xE2AA#16, 0xE555#16, 0xEAAA#16, 0xED55#16, 0xF155#16, 0xF6AA#16, 0xF955#16, 0xFEAA#16] := by decide

/-- R57: no two rows of the table select the same word. -/
theorem test_table_rows_disjoint :
    opcodeTable.Pairwise (fun r q => r.pattern &&& q.mask ≠ q.pattern &&& r.mask) := by decide

theorem test_decodeBytes_truncated : decodeBytes .little [0x21#8] = .error .truncated := by decide

/-- Every row of the table, its operand bits zero, decodes to its own instruction, and steps from reset. -/
theorem test_table_decodes_and_steps :
    opcodeTable.all (fun r => (decodeTableWord 16 r.pattern.toNat).map Instr.mnemonic == some r.mnemonic &&
      (observe (run State.reset r.pattern.toNat) fun _ => true).getD false) = true := by decide

/-! ### One step (95_test_vectors.md sections 3 to 6) -/

/-- T1, T2. -/
theorem test_ldi :
    observe (run (start []) 0x1FC3)
      (fun t => (t.pc, t.reg 3)) = some (0x0102#16, 0xFFFE#16) ∧
    observe (run (start [(3, 0xFFFF#16)]) 0x0FE3)
      (fun t => (t.pc, t.reg 3)) = some (0x0102#16, 0x007F#16) := by decide

/-- T5, T6. -/
theorem test_jmpl :
    observe (run (start [(5, 0x0200#16)]) 0x34A0)
      (fun t => (t.pc, t.reg 5, t.reg 31)) = some (0x0200#16, 0x0200#16, 0x0102#16) ∧
    observe (run (start [(31, 0x0200#16)]) 0x37E0)
      (fun t => (t.pc, t.reg 31)) = some (0x0200#16, 0x0102#16) := by decide

/-- The note below T28. -/
theorem test_jmpl_link_register :
    observe (run (start [(5, 0x0200#16), (31, 0x1234#16)] (cfg := { Config.reference with linkReg := 15 })) 0x34A0)
      (fun t => (t.pc, t.reg 15, t.reg 31)) = some (0x0200#16, 0x0102#16, 0x1234#16) := by decide

/-- T11, T12. -/
theorem test_brez :
    observe (run (start [(2, 0x0000#16), (7, 0x0040#16)]) 0x38E2)
      (fun t => (t.pc, t.reg 2, t.reg 7)) = some (0x0040#16, 0x0000#16, 0x0040#16) ∧
    observe (run (start [(2, 0x0001#16), (7, 0x0040#16)]) 0x38E2)
      (fun t => (t.pc, t.reg 2, t.reg 7)) = some (0x0102#16, 0x0001#16, 0x0040#16) := by decide

/-- T16, T17. -/
theorem test_brnez :
    observe (run (start [(2, 0x8000#16), (7, 0x0040#16)]) 0x3CE2)
      (fun t => (t.pc, t.reg 2, t.reg 7)) = some (0x0040#16, 0x8000#16, 0x0040#16) ∧
    observe (run (start [(2, 0x0000#16), (7, 0x0040#16)]) 0x3CE2)
      (fun t => (t.pc, t.reg 2, t.reg 7)) = some (0x0102#16, 0x0000#16, 0x0040#16) := by decide

/-- T20, T22. -/
theorem test_brezi :
    observe (run (start [(4, 0x0100#16)]) 0x4064)
      (fun t => (t.pc, t.reg 4)) = some (0x0102#16, 0x0100#16) ∧
    observe (run (start [(4, 0x0000#16)]) 0x4804)
      (fun t => (t.pc, t.reg 4)) = some (0x0080#16, 0x0000#16) := by decide

/-- T25, T26. -/
theorem test_brnezi :
    observe (run (start [(1, 0x0005#16)]) 0x5FC1)
      (fun t => (t.pc, t.reg 1)) = some (0x00FC#16, 0x0005#16) ∧
    observe (run (start [(1, 0x0000#16)]) 0x5FC1)
      (fun t => (t.pc, t.reg 1)) = some (0x0102#16, 0x0000#16) := by decide

/-- A3, A7. -/
theorem test_addi :
    observe (run (start [(1, 0xFFFF#16)] (c := true)) 0x6021)
      (fun t => (t.pc, t.reg 1, t.c)) = some (0x0102#16, 0x0000#16, true) ∧
    observe (run (start [(1, 0x0040#16)]) 0x6801)
      (fun t => (t.pc, t.reg 1)) = some (0x0102#16, 0x0000#16) := by decide

/-- A10, A12. -/
theorem test_muli :
    observe (run (start [(2, 0x0007#16)]) 0x7FA2)
      (fun t => (t.pc, t.reg 2)) = some (0x0102#16, 0xFFEB#16) ∧
    observe (run (start [(2, 0xFFFF#16)]) 0x7FE2)
      (fun t => (t.pc, t.reg 2)) = some (0x0102#16, 0x0001#16) := by decide

/-- A17, A22. -/
theorem test_add :
    observe (run (start [(1, 0xFFFF#16), (2, 0x0002#16)]) 0x8041)
      (fun t => (t.pc, t.reg 1, t.reg 2, t.c)) = some (0x0102#16, 0x0001#16, 0x0002#16, true) ∧
    observe (run (start [(1, 0x1234#16), (2, 0x4321#16)] (c := true)) 0x8041)
      (fun t => (t.pc, t.reg 1, t.reg 2, t.c)) = some (0x0102#16, 0x5555#16, 0x4321#16, false) := by decide

/-- A25, A28. -/
theorem test_addc :
    observe (run (start [(3, 0xFFFF#16), (4, 0xFFFF#16)] (c := true)) 0x8483)
      (fun t => (t.pc, t.reg 3, t.reg 4, t.c)) = some (0x0102#16, 0xFFFF#16, 0xFFFF#16, true) ∧
    observe (run (start [(3, 0x8000#16)] (c := true)) 0x8463)
      (fun t => (t.pc, t.reg 3, t.c)) = some (0x0102#16, 0x0001#16, true) := by decide

/-- A30, A31. -/
theorem test_sub :
    observe (run (start [(1, 0x0003#16), (2, 0x0005#16)]) 0x8841)
      (fun t => (t.pc, t.reg 1, t.reg 2, t.c)) = some (0x0102#16, 0xFFFE#16, 0x0005#16, true) ∧
    observe (run (start [(1, 0x0005#16), (2, 0x0003#16)] (c := true)) 0x8841)
      (fun t => (t.pc, t.reg 1, t.reg 2, t.c)) = some (0x0102#16, 0x0002#16, 0x0003#16, false) := by decide

/-- A39, A42. -/
theorem test_subc :
    observe (run (start [(3, 0x0000#16), (4, 0xFFFF#16)] (c := true)) 0x8C83)
      (fun t => (t.pc, t.reg 3, t.reg 4, t.c)) = some (0x0102#16, 0x0000#16, 0xFFFF#16, true) ∧
    observe (run (start [(3, 0x1234#16)] (c := true)) 0x8C63)
      (fun t => (t.pc, t.reg 3, t.c)) = some (0x0102#16, 0xFFFF#16, true) := by decide

/-- A44, A48. -/
theorem test_mul :
    observe (run (start [(1, 0xFFFE#16), (2, 0x0003#16)]) 0x9041)
      (fun t => (t.pc, t.reg 1, t.reg 2)) = some (0x0102#16, 0xFFFA#16, 0x0003#16) ∧
    observe (run (start [(1, 0x1234#16), (2, 0x0000#16)] (c := true)) 0x9041)
      (fun t => (t.pc, t.reg 1, t.reg 2, t.c)) = some (0x0102#16, 0x0000#16, 0x0000#16, true) := by decide

/-- A50, A51. -/
theorem test_mulu :
    observe (run (start [(1, 0x1234#16), (2, 0x0010#16)]) 0x9441)
      (fun t => (t.pc, t.reg 1, t.reg 2)) = some (0x0102#16, 0x2340#16, 0x0010#16) ∧
    observe (run (start [(1, 0xFFFF#16), (2, 0xFFFF#16)]) 0x9441)
      (fun t => (t.pc, t.reg 1, t.reg 2)) = some (0x0102#16, 0x0001#16, 0xFFFF#16) := by decide

/-- A54, A57. -/
theorem test_mulh :
    observe (run (start [(1, 0xFFFE#16), (2, 0x0003#16)]) 0x9841)
      (fun t => (t.pc, t.reg 1, t.reg 2)) = some (0x0102#16, 0xFFFF#16, 0x0003#16) ∧
    observe (run (start [(1, 0x8000#16), (2, 0x8000#16)]) 0x9841)
      (fun t => (t.pc, t.reg 1, t.reg 2)) = some (0x0102#16, 0x4000#16, 0x8000#16) := by decide

/-- A61, A62. -/
theorem test_mulhu :
    observe (run (start [(1, 0xFFFE#16), (2, 0x0003#16)]) 0x9C41)
      (fun t => (t.pc, t.reg 1, t.reg 2)) = some (0x0102#16, 0x0002#16, 0x0003#16) ∧
    observe (run (start [(1, 0xFFFF#16), (2, 0xFFFF#16)]) 0x9C41)
      (fun t => (t.pc, t.reg 1, t.reg 2)) = some (0x0102#16, 0xFFFE#16, 0xFFFF#16) := by decide

/-- A68. -/
theorem test_or :
    observe (run (start [(1, 0xF0F0#16), (2, 0x0FF0#16)]) 0xA041)
      (fun t => (t.pc, t.reg 1, t.reg 2)) = some (0x0102#16, 0xFFF0#16, 0x0FF0#16) := by decide

/-- A70. -/
theorem test_and :
    observe (run (start [(1, 0x1234#16), (2, 0x0FF0#16)]) 0xA441)
      (fun t => (t.pc, t.reg 1, t.reg 2)) = some (0x0102#16, 0x0230#16, 0x0FF0#16) := by decide

/-- A72. -/
theorem test_xor :
    observe (run (start [(1, 0x1234#16), (2, 0x00FF#16)]) 0xA841)
      (fun t => (t.pc, t.reg 1, t.reg 2)) = some (0x0102#16, 0x12CB#16, 0x00FF#16) := by decide

/-- A75, A78. -/
theorem test_not :
    observe (run (start [(1, 0x00FF#16)]) 0xAC01)
      (fun t => (t.pc, t.reg 1)) = some (0x0102#16, 0xFF00#16) ∧
    observe (run (start [(1, 0x00FF#16)]) 0xAFE1)
      (fun t => (t.pc, t.reg 1)) = some (0x0102#16, 0xFF00#16) := by decide

/-- A82, A84. -/
theorem test_neg :
    observe (run (start [(1, 0x7FFF#16)]) 0xB001)
      (fun t => (t.pc, t.reg 1)) = some (0x0102#16, 0x8001#16) ∧
    observe (run (start [(1, 0xFFFF#16)]) 0xB001)
      (fun t => (t.pc, t.reg 1)) = some (0x0102#16, 0xFFFF#16) := by decide

/-- A85. -/
theorem test_neg_other_parameter :
    observe (run (start [(1, 0xFFFF#16)] (cfg := { Config.reference with negFFFF := 0x0001#16 })) 0xB001)
      (fun t => (t.pc, t.reg 1)) = some (0x0102#16, 0x0001#16) := by decide

/-- S3, S5. -/
theorem test_asr :
    observe (run (start [(1, 0x8000#16)]) 0xB401)
      (fun t => (t.pc, t.reg 1)) = some (0x0102#16, 0xC000#16) ∧
    observe (run (start [(1, 0x0001#16)]) 0xB401)
      (fun t => (t.pc, t.reg 1, t.c)) = some (0x0102#16, 0x0000#16, false) := by decide

/-- S7, S8. -/
theorem test_lsl :
    observe (run (start [(1, 0x8001#16)]) 0xB801)
      (fun t => (t.pc, t.reg 1)) = some (0x0102#16, 0x0002#16) ∧
    observe (run (start [(1, 0x8000#16)]) 0xB801)
      (fun t => (t.pc, t.reg 1, t.c)) = some (0x0102#16, 0x0000#16, false) := by decide

/-- S10, S11. -/
theorem test_lsr :
    observe (run (start [(1, 0x8004#16)]) 0xBC01)
      (fun t => (t.pc, t.reg 1)) = some (0x0102#16, 0x4002#16) ∧
    observe (run (start [(1, 0x0001#16)]) 0xBC01)
      (fun t => (t.pc, t.reg 1)) = some (0x0102#16, 0x0000#16) := by decide

/-- S15, S17. -/
theorem test_lsli :
    observe (run (start [(1, 0xABCD#16)]) 0xC1E1)
      (fun t => (t.pc, t.reg 1)) = some (0x0102#16, 0x8000#16) ∧
    observe (run (start [(1, 0x0012#16)]) 0xC301)
      (fun t => (t.pc, t.reg 1)) = some (0x0102#16, 0x1200#16) := by decide

/-- S20, S21. -/
theorem test_lsri :
    observe (run (start [(1, 0xABCD#16)]) 0xC5E1)
      (fun t => (t.pc, t.reg 1)) = some (0x0102#16, 0x0001#16) ∧
    observe (run (start [(1, 0xFFB4#16)]) 0xC501)
      (fun t => (t.pc, t.reg 1)) = some (0x0102#16, 0x00FF#16) := by decide

/-- S24, S25. -/
theorem test_scb :
    observe (run (start [(1, 0x0000#16)]) 0xCBE1)
      (fun t => (t.pc, t.reg 1)) = some (0x0102#16, 0x8000#16) ∧
    observe (run (start [(1, 0xFFFF#16)]) 0xC9E1)
      (fun t => (t.pc, t.reg 1)) = some (0x0102#16, 0x7FFF#16) := by decide

/-- S29, S35. -/
theorem test_roti_left :
    observe (run (start [(1, 0x8001#16)]) 0xCC21)
      (fun t => (t.pc, t.reg 1)) = some (0x0102#16, 0x0003#16) ∧
    observe (run (start [(1, 0x1234#16)]) 0xCDE1)
      (fun t => (t.pc, t.reg 1)) = some (0x0102#16, 0x091A#16) := by decide

/-- S30, S36. -/
theorem test_roti_right :
    observe (run (start [(1, 0x8001#16)]) 0xCE21)
      (fun t => (t.pc, t.reg 1)) = some (0x0102#16, 0xC000#16) ∧
    observe (run (start [(1, 0x1234#16)]) 0xCFE1)
      (fun t => (t.pc, t.reg 1)) = some (0x0102#16, 0x2468#16) := by decide

/-- M2, M3. -/
theorem test_cmplt :
    observe (run (start [(1, 0x8000#16), (2, 0x7FFF#16)]) 0xD441)
      (fun t => (t.pc, t.reg 1, t.reg 2)) = some (0x0102#16, 0x0001#16, 0x7FFF#16) ∧
    observe (run (start [(1, 0x0000#16), (2, 0xFFFF#16)]) 0xD441)
      (fun t => (t.pc, t.reg 1, t.reg 2)) = some (0x0102#16, 0x0000#16, 0xFFFF#16) := by decide

/-- M6, M7. -/
theorem test_cmpltu :
    observe (run (start [(1, 0xFFFF#16), (2, 0x0001#16)]) 0xD841)
      (fun t => (t.pc, t.reg 1, t.reg 2)) = some (0x0102#16, 0x0000#16, 0x0001#16) ∧
    observe (run (start [(1, 0x0000#16), (2, 0xFFFF#16)]) 0xD841)
      (fun t => (t.pc, t.reg 1, t.reg 2)) = some (0x0102#16, 0x0001#16, 0xFFFF#16) := by decide

/-- M11, M12. -/
theorem test_cmplte :
    observe (run (start [(1, 0x7FFF#16), (2, 0x8000#16)]) 0xDC41)
      (fun t => (t.pc, t.reg 1, t.reg 2)) = some (0x0102#16, 0x0000#16, 0x8000#16) ∧
    observe (run (start [(1, 0x8000#16), (2, 0x7FFF#16)]) 0xDC41)
      (fun t => (t.pc, t.reg 1, t.reg 2)) = some (0x0102#16, 0x0001#16, 0x7FFF#16) := by decide

/-- M14, M16. -/
theorem test_cmplteu :
    observe (run (start [(1, 0x8000#16), (2, 0x7FFF#16)]) 0xE041)
      (fun t => (t.pc, t.reg 1, t.reg 2)) = some (0x0102#16, 0x0000#16, 0x7FFF#16) ∧
    observe (run (start [(1, 0x0000#16), (2, 0x0000#16)]) 0xE041)
      (fun t => (t.pc, t.reg 1, t.reg 2)) = some (0x0102#16, 0x0001#16, 0x0000#16) := by decide

/-- M18, M19. -/
theorem test_cmpe :
    observe (run (start [(1, 0x1234#16), (2, 0x1235#16)]) 0xE441)
      (fun t => (t.pc, t.reg 1, t.reg 2)) = some (0x0102#16, 0x0000#16, 0x1235#16) ∧
    observe (run (start [(1, 0x1234#16), (2, 0x1234#16)] (c := true)) 0xE441)
      (fun t => (t.pc, t.reg 1, t.reg 2, t.c)) = some (0x0102#16, 0x0001#16, 0x1234#16, true) := by decide

/-- M22, M23. -/
theorem test_cmpei :
    observe (run (start [(1, 0x001F#16)]) 0xEBE1)
      (fun t => (t.pc, t.reg 1)) = some (0x0102#16, 0x0000#16) ∧
    observe (run (start [(1, 0xFFF0#16)]) 0xEA01)
      (fun t => (t.pc, t.reg 1)) = some (0x0102#16, 0x0001#16) := by decide

/-- M27. -/
theorem test_mov :
    observe (run (start [(2, 0xBEEF#16)]) 0xEC41)
      (fun t => (t.pc, t.reg 1, t.reg 2)) = some (0x0102#16, 0xBEEF#16, 0xBEEF#16) := by decide

/-- M30, M32. -/
theorem test_ld :
    observe (run (start [(2, 0x0200#16)] (mem := [(0x0200, 0xEF#8), (0x0201, 0xBE#8)])) 0xF041)
      (fun t => (t.pc, t.reg 1, t.reg 2)) = some (0x0102#16, 0xBEEF#16, 0x0200#16) ∧
    observe (run (start [(2, 0x0200#16)] (mem := [(0x0200, 0x34#8), (0x0201, 0x12#8)])) 0xF042)
      (fun t => (t.pc, t.reg 2)) = some (0x0102#16, 0x1234#16) := by decide

/-- M33, M35, M36. -/
theorem test_ld_faults :
    faultOf (run (start [(2, 0x0201#16)] (mem := [(0x0200, 0x00#8), (0x0201, 0x00#8), (0x0202, 0x00#8)])) 0xF041) =
      some (.misalignedAccess 0x0201#16) ∧
    faultOf (run (start [(2, 0x0200#16)] (mem := [(0x0200, 0x34#8)])) 0xF041) =
      some (.uninitialisedRead 0x0201#16) ∧
    faultOf (run (start [(2, 0x0100#16)] (cfg := guarded)) 0xF041) =
      some (.codeRegionAccess 0x0100#16) := by decide

/-- M31. -/
theorem test_ld_big :
    observe (run (start [(2, 0x0200#16)] (mem := [(0x0200, 0xEF#8), (0x0201, 0xBE#8)]) (cfg := bigEndian)) 0xF041)
      (fun t => (t.pc, t.reg 1, t.reg 2)) = some (0x0102#16, 0xEFBE#16, 0x0200#16) := by decide

/-- M37, M40. -/
theorem test_ldb :
    observe (run (start [(2, 0x0201#16)] (mem := [(0x0201, 0x7A#8)])) 0xF441)
      (fun t => (t.pc, t.reg 1, t.reg 2)) = some (0x0102#16, 0x007A#16, 0x0201#16) ∧
    observe (run (start [(1, 0xFFFF#16), (2, 0x0200#16)] (mem := [(0x0200, 0x7F#8)])) 0xF441)
      (fun t => (t.pc, t.reg 1, t.reg 2)) = some (0x0102#16, 0x007F#16, 0x0200#16) := by decide

/-- M39. -/
theorem test_ldb_sign :
    observe (run (start [(2, 0x0200#16)] (mem := [(0x0200, 0x80#8)]) (cfg := signExtending)) 0xF441)
      (fun t => (t.pc, t.reg 1, t.reg 2)) = some (0x0102#16, 0xFF80#16, 0x0200#16) := by decide

/-- M42, M43. -/
theorem test_st :
    observe (run (start [(1, 0xBEEF#16), (2, 0x0200#16)]) 0xF841)
      (fun t => (t.pc, t.byteAt? 0x0200#16, t.byteAt? 0x0201#16)) = some (0x0102#16, some 0xEF#8, some 0xBE#8) ∧
    observe (run (start [(1, 0xBEEF#16), (2, 0x0200#16)] (cfg := bigEndian)) 0xF841)
      (fun t => (t.pc, t.byteAt? 0x0200#16, t.byteAt? 0x0201#16)) = some (0x0102#16, some 0xBE#8, some 0xEF#8) := by decide

/-- M45, M46. -/
theorem test_st_faults :
    faultOf (run (start [(1, 0xBEEF#16), (2, 0x0203#16)]) 0xF841) =
      some (.misalignedAccess 0x0203#16) ∧
    faultOf (run (start [(1, 0xBEEF#16), (2, 0x0100#16)] (cfg := guarded)) 0xF841) =
      some (.codeRegionAccess 0x0100#16) := by decide

/-- M49, M50. -/
theorem test_stb :
    observe (run (start [(1, 0x12AB#16), (2, 0x0200#16)] (mem := [(0x0200, 0x55#8), (0x0201, 0x66#8)])) 0xFC41)
      (fun t => (t.pc, t.byteAt? 0x0200#16)) = some (0x0102#16, some 0xAB#8) ∧
    faultOf (run (start [(1, 0x12AB#16), (2, 0x0101#16)] (cfg := guarded)) 0xFC41) =
      some (.codeRegionAccess 0x0101#16) := by decide

/-- T8, second step; P7a; P7e; from reset, nothing placed (R23). -/
theorem test_fetch_faults :
    faultOf (step { start [] with pc := 0x0201#16 }) = some (.misalignedFetch 0x0201#16) ∧
    faultOf (run State.reset 0x2000) = some (.illegalInstruction 0x2000#16 0x0000#16) ∧
    faultOf (step { start [] (cfg := guarded) with pc := 0x0102#16 }) = some (.fetchOutsideCode 0x0102#16) ∧
    faultOf (step State.reset) = some (.uninitialisedRead 0x0000#16) := by decide

/-- R203, check 2: the lower byte's content before the higher byte's area, and the other way for data (checks 6, 7). -/
theorem test_fetch_lower_byte_first :
    faultOf (step { start [] (cfg := mapped) with pc := 0x0500#16 }) = some (.uninitialisedRead 0x0500#16) ∧
    faultOf (step { start [] (mem := [(0x0500, 0#8)]) (cfg := mapped) with pc := 0x0500#16 }) =
      some (.unmappedAccess 0x0501#16) ∧
    faultOf (exec (.ld 1 2) (start [(2, 0x0500#16)] (cfg := mapped))) = some (.unmappedAccess 0x0501#16) := by decide

/-- T27: pc wraps at the top of memory (R15). -/
theorem test_pc_wraps :
    observe (run { start [] with pc := 0xFFFE#16 } 0x5021) (fun t => t.pc) = some 0x0000#16 := by decide

/-- R41, the first byte that is not ram. -/
theorem test_areas :
    faultOf (exec (.ld 1 2) (start [(2, 0x0300#16)] (cfg := mapped))) = some (.unmappedAccess 0x0300#16) ∧
    faultOf (exec (.stb 2 1) (start [(2, 0x0401#16)] (cfg := mapped))) = some (.unmodelledDevice 0x0401#16) ∧
    faultOf (exec (.st 2 1) (start [(2, 0x0500#16)] (cfg := mapped))) = some (.unmappedAccess 0x0501#16) := by decide

/-- Memory is listed in one form whatever the order of the stores (20_memory.md R30). -/
theorem test_memory_canonical :
    Memory.write (Memory.write [] 7 1#8) 3 2#8 = Memory.write (Memory.write (Memory.write [] 3 9#8) 7 1#8) 3 2#8 := by
  decide

/-! ### Every obligation with hypotheses has a state and operands that meet them

Each theorem bears the name of its obligation, or its docstring names the obligations it serves. Its conjuncts are the hypotheses of the obligation's clauses at concrete
states and operands; a clause's outcome is shown with them where it is not the obligation's own conclusion. -/

theorem test_witness_DecodeOfEncodeIsTheInstruction :
    (Instr.lsli 31 15).wf = true ∧ (Instr.lsri 0 0).wf = true ∧ (Instr.scb 31 .set 15).wf = true ∧
    (Instr.roti 31 .right 15).wf = true ∧ (Instr.stb 31 31).wf = true := by decide

theorem test_witness_EncodeOfDecodeClearsIgnoredBits :
    decode 0xC301#16 = .ok (.lsli 1 8) ∧ decode 0xFFFF#16 = .ok (.stb 31 31) := by decide

theorem test_witness_UnassignedOpcodesAreIllegal :
    fetchWord (start [] (mem := [(0x0100, 0xFF#8), (0x0101, 0x33#8)])) = .ok 0x33FF#16 ∧
    decode 0x33FF#16 = .error (.unassignedOpcode 0x33FF#16) ∧
    fetchWord (start [] (mem := [(0x0100, 0x00#8), (0x0101, 0xD0#8)])) = .ok 0xD000#16 ∧
    decode 0xD000#16 = .error (.unassignedOpcode 0xD000#16) := by decide

theorem test_witness_IgnoredBitsHaveNoEffect :
    decode 0x3400#16 = .ok (.jmpl 0) ∧
    0x001F#16 &&& (Instr.jmpl 0).ignoredBits = 0x001F#16 ∧
    decode 0xAC01#16 = .ok (.not 1) ∧ 0x03E0#16 &&& (Instr.not 1).ignoredBits = 0x03E0#16 ∧
    decode (0xAC01#16 ^^^ 0x03E0#16) = .ok (.not 1) := by decide

/-- Under both byte orders, at the top of memory too. -/
theorem test_witness_StepExecutesTheDecodedInstruction :
    (let s := start [] (mem := [(0x0100, 0xC3#8), (0x0101, 0x1F#8)])
     EvenAddr s.pc ∧ s.cfg.mayFetch s.pc = true ∧ s.cfg.mayFetch (s.pc + 1#16) = true ∧
     s.cfg.area s.pc = .ram ∧ s.cfg.area (s.pc + 1#16) = .ram ∧
     s.byteAt? s.pc = some 0xC3#8 ∧ s.byteAt? (s.pc + 1#16) = some 0x1F#8 ∧
     decode (0x1F#8 ++ 0xC3#8) = .ok (.ldi 3 0xFE#8)) ∧
    (let s : State := { start [] (mem := [(0xFFFE, 0x1F#8), (0xFFFF, 0xC3#8)]) (cfg := bigEndian) with pc := 0xFFFE#16 }
     EvenAddr s.pc ∧ s.cfg.mayFetch s.pc = true ∧ s.cfg.mayFetch (s.pc + 1#16) = true ∧
     s.cfg.area s.pc = .ram ∧ s.cfg.area (s.pc + 1#16) = .ram ∧
     s.byteAt? s.pc = some 0x1F#8 ∧ s.byteAt? (s.pc + 1#16) = some 0xC3#8 ∧
     decode (0x1F#8 ++ 0xC3#8) = .ok (.ldi 3 0xFE#8)) := by
  unfold EvenAddr
  decide

/-- One state for each clause. -/
theorem test_witness_FetchFaultsInOrder :
    (¬ EvenAddr (0xFFFF#16) ∧ EvenAddr (0xFFFE#16) ∧ EvenAddr (0x0100#16) ∧ EvenAddr (0x0300#16) ∧
      EvenAddr (0x0400#16) ∧ EvenAddr (0x0500#16) ∧ EvenAddr (0x0600#16)) ∧
    (guarded.mayFetch 0xFFFE#16 = false ∧ guarded.mayFetch 0x0100#16 = true ∧
      { Config.reference with code := some [⟨0x0100, 1⟩] }.mayFetch 0x0101#16 = false) ∧
    (mapped.mayFetch 0x0300#16 = true ∧ mapped.mayFetch 0x0301#16 = true ∧ mapped.area 0x0300#16 = .unmapped) ∧
    (mapped.mayFetch 0x0400#16 = true ∧ mapped.mayFetch 0x0401#16 = true ∧ mapped.area 0x0400#16 = .device) ∧
    (mapped.area 0x0500#16 = .ram ∧ (start [] (cfg := mapped)).byteAt? 0x0500#16 = none ∧
      mapped.area 0x0501#16 = .unmapped) ∧
    (let s := start [] (mem := [(0x0100, 0#8), (0x0500, 0#8), (0x0600, 0#8)]) (cfg := mapped)
     ((s.byteAt? 0x0500#16).isSome = true ∧ s.cfg.area 0x0501#16 = .unmapped) ∧
     (s.cfg.area 0x0600#16 = .ram ∧ (s.byteAt? 0x0600#16).isSome = true ∧ s.cfg.area 0x0601#16 = .device) ∧
     (s.cfg.area 0x0100#16 = .ram ∧ (s.byteAt? 0x0100#16).isSome = true ∧ s.cfg.area 0x0101#16 = .ram ∧
       s.byteAt? 0x0101#16 = none)) := by
  unfold EvenAddr
  decide

/-- A step at an odd pc; steps to an odd pc by jmpl, brez and brezi; a configuration that is not the reference. -/
theorem test_witness_OddPcFaultsAndArisesOnlyFromTransfers :
    State.pc { start [] with pc := 0xFFFF#16 } = 0xFFFF#16 ∧ (0xFFFF#16).getLsbD 0 = true ∧
    observe (run (start [(5, 0x0201#16)]) 0x34A0) (fun t => t.pc.getLsbD 0) = some true ∧
    observe (run (start [(7, 0x0041#16)]) 0x38E2) (fun t => t.pc.getLsbD 0) = some true ∧
    observe (run (start [] (cfg := byteBranch)) 0x4064)
      (fun t => t.pc.getLsbD 0) = some true ∧
    Config.wf { mapped with resetPc := 0xFFFE#16 } = true := by decide

/-- Each clause: no transfer, jmpl, a register branch taken, an immediate branch taken. -/
theorem test_witness_PcAdvancesByTwoUnlessTransferred :
    (observe (exec (.mov 1 2) (start [])) fun _ => true) = some true ∧
    transfersControl (start []) (.mov 1 2) = false ∧
    (observe (exec (.brnez 1 2) (start [])) fun _ => true) = some true ∧
    transfersControl (start []) (.brnez 1 2) = false ∧
    (observe (exec (.jmpl 1) (start [])) fun _ => true) = some true ∧
    (observe (exec (.brez 1 2) (start [])) fun _ => true) = some true ∧
    transfersControl (start []) (.brez 1 2) = true ∧
    (observe (exec (.brnezi 1 3) (start [(1, 9#16)])) fun _ => true) = some true ∧
    transfersControl (start [(1, 9#16)]) (.brnezi 1 3) = true := by decide

theorem test_witness_OnlyAddAndSubFamiliesTouchCarry :
    (observe (exec (.add 1 2) (start [(1, 0xFFFF#16), (2, 1#16)])) fun t => t.c) = some true ∧
    (observe (exec (.addc 1 2) (start [(1, 0xFFFF#16)] (c := true))) fun t => t.c) = some true ∧
    (observe (exec (.sub 1 2) (start [(2, 1#16)])) fun t => t.c) = some true ∧
    (observe (exec (.subc 1 2) (start [] (c := true))) fun t => t.c) = some true ∧
    writesCarry (.lsl 1) = false ∧ (observe (exec (.lsl 1) (start [] (c := true))) fun t => t.c) = some true ∧
    readsCarry (.add 1 2) = false ∧ readsCarry (.ld 1 2) = false := by decide

theorem test_witness_RegistersReadAndWritten :
    (observe (exec (.jmpl 5) (start [])) fun _ => true) = some true ∧
    regsWritten Config.reference (.jmpl 5) = [31] ∧
    7 ∉ regsRead (start [(2, 1#16)]) (.brez 2 7) ∧ 7 ∈ regsRead (start []) (.brez 2 7) ∧
    1 ∉ regsRead (start []) (.mov 1 0) ∧ 0 ∉ regsRead (start []) (.ldi 0 5) := by decide

theorem test_witness_MemoryReachedByLoadsAndStoresAlone :
    (let s := start [(2, 0x0200#16)] (mem := [(0x0200, 0xEF#8), (0x0201, 0xBE#8)])
     0x01FF#16 ∉ bytesRead s (.ld 1 2) ∧ 0x0202#16 ∉ bytesRead s (.ld 1 2) ∧
     (observe (exec (.ld 1 2) s) fun t => t.reg 1) = some 0xBEEF#16 ∧
     0x0200#16 ∉ bytesRead s (.st 2 1) ∧ (observe (exec (.st 2 1) s) fun _ => true) = some true) := by decide

theorem test_witness_StepKeepsWellFormedState :
    (let s := start [(2, 0x0200#16)] (mem := [(0x0100, 0x41#8), (0x0101, 0xF8#8)]) (cfg := mapped)
     s.cfg.wf = true ∧ Memory.wf s.mem ∧ (observe (step s) fun t => t.mem.length) = some 4) := by decide

theorem test_witness_ResetStartsAtResetPc :
    Config.wf { mapped with resetPc := 0xFFFE#16, linkReg := 0, byteOrder := .big } = true := by decide

/-- A step that shows the state it started from is a step to that state. -/
theorem final_of_observe {s : State} (h : observe (step s) id = some s) : Final s := by
  unfold Final StepsTo
  cases hs : step s <;> simp_all [observe]

/-- A final state of each of the five kinds: T21, T28; brez and brnez to themselves; T7. -/
theorem test_witness_FinalStatesAreSelfLoops :
    Final (start [] (mem := [(0x0100, 0x04#8), (0x0101, 0x40#8)])) ∧
    Final (start [(1, 0xFFFF#16)] (mem := [(0x0100, 0x01#8), (0x0101, 0x50#8)])) ∧
    Final (start [(7, 0x0100#16)] (mem := [(0x0100, 0xE2#8), (0x0101, 0x38#8)])) ∧
    Final (start [(2, 1#16), (7, 0x0100#16)] (mem := [(0x0100, 0xE2#8), (0x0101, 0x3C#8)])) ∧
    Final (start [(5, 0x0100#16), (31, 0x0102#16)] (mem := [(0x0100, 0xA0#8), (0x0101, 0x34#8)])) :=
  ⟨final_of_observe (by decide), final_of_observe (by decide), final_of_observe (by decide),
    final_of_observe (by decide), final_of_observe (by decide)⟩

/-- A self-loop of each of the five kinds, at the states of the witness before. -/
theorem test_witness_SelfLoopIsSafeForever :
    SelfLoop (start [] (mem := [(0x0100, 0x04#8), (0x0101, 0x40#8)])) ∧
    SelfLoop (start [(1, 0xFFFF#16)] (mem := [(0x0100, 0x01#8), (0x0101, 0x50#8)])) ∧
    SelfLoop (start [(7, 0x0100#16)] (mem := [(0x0100, 0xE2#8), (0x0101, 0x38#8)])) ∧
    SelfLoop (start [(2, 1#16), (7, 0x0100#16)] (mem := [(0x0100, 0xE2#8), (0x0101, 0x3C#8)])) ∧
    SelfLoop (start [(5, 0x0100#16), (31, 0x0102#16)] (mem := [(0x0100, 0xA0#8), (0x0101, 0x34#8)])) := by
  unfold SelfLoop Fetches
  exact ⟨.inl ⟨4, 0, by decide⟩, .inr (.inl ⟨1, 0, by decide⟩), .inr (.inr (.inl ⟨2, 7, by decide⟩)),
    .inr (.inr (.inr (.inl ⟨2, 7, by decide⟩))), .inr (.inr (.inr (.inr ⟨5, by decide⟩)))⟩

theorem test_witness_PlacedWordIsExecuted :
    EvenAddr (start []).pc ∧ ¬ EvenAddr (State.pc { start [] with pc := 0x0201#16 }) := by
  unfold EvenAddr
  decide

/-- RegisterBranchesTestAndJump and ImmediateBranchesTestAndJump: a register that is zero, one that is not. -/
theorem test_witness_BranchesTestAndJump :
    ((start [(2, 1#16)]).reg 0).toNat = 0 ∧ ((start [(2, 1#16)]).reg 2).toNat ≠ 0 := by decide

theorem test_witness_ReferenceBranchTargetFormula :
    (start []).reg 4 = 0#16 ∧ (observe (exec (.brezi 4 3) (start [])) fun t => t.pc) = some 0x0106#16 ∧
    (start [(4, 1#16)]).reg 4 ≠ 0#16 ∧
    (observe (exec (.brnezi 4 3) (start [(4, 1#16)])) fun t => t.pc) = some 0x0106#16 ∧ EvenAddr 0xFFFE#16 := by
  unfold EvenAddr
  decide

theorem test_witness_NegIsTwosComplementButForFFFF :
    ((start [(1, 0xFFFF#16)]).reg 1).toNat = 65535 ∧ ((start [(1, 0xFFFE#16)]).reg 1).toNat ≠ 65535 := by decide

/-- ShiftsByImmediate, ScbSetsOrClearsOneBit, RotiRotatesByDistance: the distances and positions. -/
theorem test_witness_ShiftDistances : 0 < 16 ∧ 15 < 16 ∧ ¬ 16 < 16 := by decide

/-- One address for each clause: odd; in `cfg.CODE` (first byte, second byte); not ram (first byte, second byte); not
written (first byte, second byte); a word at the top of memory. -/
theorem test_witness_LdLoadsWordOrFaults :
    ¬ EvenAddr 0xFFFF#16 ∧
    (EvenAddr 0x0100#16 ∧ guarded.inCode 0x0100#16 = true) ∧
    (EvenAddr 0x00FE#16 ∧ { Config.reference with code := some [⟨0x00FF, 1⟩] }.inCode 0x00FF#16 = true) ∧
    (EvenAddr 0x0300#16 ∧ mapped.inCode 0x0300#16 = false ∧ mapped.inCode 0x0301#16 = false ∧
      mapped.area 0x0300#16 = .unmapped) ∧
    (EvenAddr 0x0400#16 ∧ mapped.inCode 0x0400#16 = false ∧ mapped.area 0x0400#16 = .device) ∧
    (EvenAddr 0x0500#16 ∧ mapped.area 0x0500#16 = .ram ∧ mapped.area 0x0501#16 = .unmapped) ∧
    (EvenAddr 0x0600#16 ∧ mapped.area 0x0600#16 = .ram ∧ mapped.area 0x0601#16 = .device) ∧
    (let s := start [] (mem := [(0x0200, 0#8), (0xFFFE, 0x01#8), (0xFFFF, 0x80#8)])
     EvenAddr 0x0202#16 ∧ DataByte s 0x0202#16 ∧ DataByte s 0x0203#16 ∧ s.byteAt? 0x0202#16 = none ∧
     DataByte s 0x0200#16 ∧ DataByte s 0x0201#16 ∧ (s.byteAt? 0x0200#16).isSome = true ∧
     s.byteAt? 0x0201#16 = none ∧
     EvenAddr 0xFFFE#16 ∧ DataByte s 0xFFFE#16 ∧ DataByte s (0xFFFE#16 + 1#16) ∧
     s.byteAt? 0xFFFE#16 = some 0x01#8 ∧ s.byteAt? (0xFFFE#16 + 1#16) = some 0x80#8) := by
  unfold EvenAddr DataByte
  decide

theorem test_witness_LdbLoadsByteOrFaults :
    guarded.inCode 0x0101#16 = true ∧
    (mapped.inCode 0x0301#16 = false ∧ mapped.area 0x0301#16 = .unmapped ∧ mapped.area 0x0401#16 = .device) ∧
    (let s := start [] (mem := [(0xFFFF, 0x80#8)])
     DataByte s 0x0201#16 ∧ s.byteAt? 0x0201#16 = none ∧ DataByte s 0xFFFF#16 ∧ s.byteAt? 0xFFFF#16 = some 0x80#8) ∧
    { Config.reference with ldbExtend := .sign }.wf = true := by
  unfold DataByte
  decide

theorem test_witness_StStoresWordOrFaults :
    ¬ EvenAddr 0xFFFF#16 ∧
    (EvenAddr 0x0100#16 ∧ guarded.inCode 0x0100#16 = true) ∧
    (EvenAddr 0x0300#16 ∧ mapped.inCode 0x0300#16 = false ∧ mapped.inCode 0x0301#16 = false ∧
      mapped.area 0x0300#16 = .unmapped ∧ EvenAddr 0x0400#16 ∧ mapped.area 0x0400#16 = .device) ∧
    (EvenAddr 0x0500#16 ∧ mapped.area 0x0500#16 = .ram ∧ mapped.area 0x0501#16 = .unmapped ∧
      EvenAddr 0x0600#16 ∧ mapped.area 0x0600#16 = .ram ∧ mapped.area 0x0601#16 = .device) ∧
    (EvenAddr 0xFFFE#16 ∧ DataByte (start []) 0xFFFE#16 ∧ DataByte (start []) (0xFFFE#16 + 1#16)) := by
  unfold EvenAddr DataByte
  decide

theorem test_witness_StbStoresLowByteOrFaults :
    guarded.inCode 0x0101#16 = true ∧
    (mapped.inCode 0x0301#16 = false ∧ mapped.area 0x0301#16 = .unmapped ∧ mapped.area 0x0401#16 = .device) ∧
    DataByte (start []) 0xFFFF#16 := by
  unfold DataByte
  decide

/-- At the top of memory. -/
theorem test_witness_MixedWidthAccesses :
    (let s := start [(1, 0xFFFE#16), (2, 0xFFFF#16)]
     EvenAddr (s.reg 1) ∧ s.reg 2 = s.reg 1 + 1#16 ∧ DataByte s (s.reg 1) ∧ DataByte s (s.reg 2)) := by
  unfold EvenAddr DataByte
  decide

/-- `ld r1, r2` in the program and the data word, both with their bytes exchanged. -/
theorem test_witness_ByteOrderUnobservableByWordAccesses :
    (let s := start [(2, 0x0200#16)] (mem := [(0x0100, 0x41#8), (0x0101, 0xF0#8), (0x0200, 0xEF#8), (0x0201, 0xBE#8)])
     let s' := start [(2, 0x0200#16)] (mem := [(0x0100, 0xF0#8), (0x0101, 0x41#8), (0x0200, 0xBE#8), (0x0201, 0xEF#8)])
       (cfg := bigEndian)
     (s.cfg.byteOrder = .little ∧ s'.cfg = { s.cfg with byteOrder := .big } ∧ s'.regs = s.regs ∧ s'.pc = s.pc ∧
       s'.c = s.c ∧ ∀ a, EvenAddr a → s'.byteAt? a = s.byteAt? (a + 1#16) ∧ s'.byteAt? (a + 1#16) = s.byteAt? a) ∧
     (observe (step s) fun t => t.reg 1) = some 0xBEEF#16 ∧ Fetches s (.ld 1 2)) := by
  refine ⟨⟨by decide, by decide, by decide, by decide, by decide, fun a ha => ?_⟩, by decide, ?_⟩
  · have h0 : a.toNat % 2 = 0 := by
      simpa [EvenAddr, BitVec.getLsbD, Nat.testBit_zero] using ha
    have h1 : (a + 1#16).toNat = a.toNat + 1 := by
      have := a.isLt
      simp only [BitVec.toNat_add, BitVec.toNat_ofNat]
      omega
    simp only [State.byteAt?, h1, start, List.foldl, State.setReg_mem, Memory.read]
    generalize a.toNat = n at h0
    constructor <;> split_ifs <;> first | rfl | omega
  · unfold Fetches
    decide

/-- ProductOfHighAndLowWords, MultiWordAddAndSubtract, InversePairsRestoreRegister: registers and distances. -/
theorem test_witness_RegisterSequences :
    ((1 : Reg) ≠ 2 ∧ (1 : Reg) ≠ 3 ∧ (2 : Reg) ≠ 3) ∧ ((1 : Reg) ≠ 2 ∧ (1 : Reg) ≠ 4) ∧
    (start []).reg 1 ≠ 0xFFFF#16 ∧ (1 ≤ 1 ∧ 1 < 16) ∧ (1 ≤ 15 ∧ 15 < 16) := by decide

end Sys2Proof.Tests
end

section
/-! SUPPORT. What an instruction depends on (10_state.md R12, R17), said once: started with other values in registers
and carry that it does not read, it does the same (`exec_keepFrom`). The statements about carry, registers and pc of
10_state.md are settled from it and from `exec_effect`. -/

namespace Sys2Proof.Machine

/-! ### The same result with other registers and carry -/

/-- The result with its next state, if any, changed. -/
def mapNext (f : State → State) : Result → Result
  | .next t => .next (f t)
  | .fault r => .fault r
  | .refused r => .refused r

/-- Two changes of the next state that agree on the one there is. -/
theorem mapNext_congr {f g : State → State} {x : Result} (h : ∀ t, x = .next t → f t = g t) :
    mapNext f x = mapNext g x := by
  cases x with
  | next t => exact congrArg Host.Outcome.next (h t rfl)
  | fault r => rfl
  | refused r => rfl

/-- The register file `kept` with the listed registers taken from `written`. -/
def overwriteRegs (kept written : Vector Word 32) : List Reg → Vector Word 32
  | [] => kept
  | r :: rest => (overwriteRegs kept written rest).set r written[r]

theorem getElem_overwriteRegs (kept written : Vector Word 32) (l : List Reg) (q : Reg) :
    (overwriteRegs kept written l)[q] = if q ∈ l then written[q] else kept[q] := by
  induction l with
  | nil => simp [overwriteRegs]
  | cons r rest ih =>
    by_cases h : r = q
    · simp [overwriteRegs, h]
    · have hv : r.val ≠ q.val := Fin.val_ne_of_ne h
      simpa [overwriteRegs, Vector.getElem_set, hv, Ne.symm h] using ih

/-- `t` with every register but the written ones taken from `u`, and the carry too where it is not written. -/
def State.keepFrom (u : State) (written : List Reg) (carryWritten : Bool) (t : State) : State :=
  { t with
    regs := overwriteRegs u.regs t.regs written
    c := if carryWritten then t.c else u.c }

section KeepFrom

variable (u t : State) (written : List Reg) (carryWritten : Bool)

@[simp] theorem State.keepFrom_cfg : (u.keepFrom written carryWritten t).cfg = t.cfg := rfl
@[simp] theorem State.keepFrom_pc : (u.keepFrom written carryWritten t).pc = t.pc := rfl
@[simp] theorem State.keepFrom_mem : (u.keepFrom written carryWritten t).mem = t.mem := rfl
@[simp] theorem State.keepFrom_c : (u.keepFrom written carryWritten t).c = if carryWritten then t.c else u.c := rfl

@[simp] theorem State.keepFrom_reg (r : Reg) :
    (u.keepFrom written carryWritten t).reg r = if r ∈ written then t.reg r else u.reg r :=
  getElem_overwriteRegs u.regs t.regs written r

theorem State.keepFrom_setCarry (b : Bool) :
    (u.setCarry b).keepFrom written carryWritten t =
      if carryWritten then u.keepFrom written carryWritten t
      else (u.keepFrom written carryWritten t).setCarry b := by
  cases carryWritten <;> rfl

theorem State.keepFrom_setReg (q : Reg) (v : Word) :
    (u.setReg q v).keepFrom written carryWritten t =
      if q ∈ written then u.keepFrom written carryWritten t
      else (u.keepFrom written carryWritten t).setReg q v := by
  split_ifs with hq
  · refine State.ext_of rfl (fun r => ?_) rfl rfl rfl
    by_cases hr : r ∈ written
    · simp [hr]
    · simp [hr, ne_of_mem_of_not_mem hq hr |>.symm]
  · refine State.ext_of rfl (fun r => ?_) rfl rfl rfl
    by_cases hr : r = q
    · simp [hr, hq]
    · simp [hr]

end KeepFrom

/-! ### The ends of instructions, started with the registers and carry of `u` -/

section Ends

variable {s u : State} {d : Reg} {v v' : Word}

theorem setReg_keepFrom (s u : State) (d : Reg) (v : Word) :
    (u.keepFrom [] false s).setReg d v = u.keepFrom [d] false (s.setReg d v) :=
  State.ext_of rfl (fun r => by by_cases h : r = d <;> simp [h]) rfl rfl rfl

theorem writeBack_keepFrom (hv : v' = v) :
    writeBack d v' (u.keepFrom [] false s) = mapNext (u.keepFrom [d] false) (writeBack d v s) := by
  rw [hv, writeBack, setReg_keepFrom]
  rfl

theorem writeBackCarry_keepFrom {c c' : Bool} (hv : v' = v) (hc : c' = c) :
    writeBackCarry d v' c' (u.keepFrom [] false s) = mapNext (u.keepFrom [d] true) (writeBackCarry d v c s) := by
  rw [hv, hc, writeBackCarry, setReg_keepFrom]
  rfl

/-- The target counts only where the branch is taken. -/
theorem branchIf_keepFrom {taken taken' : Bool} (ht : taken' = taken) (hv : taken = true → v' = v) :
    branchIf taken' v' (u.keepFrom [] false s) = mapNext (u.keepFrom [] false) (branchIf taken v s) := by
  subst ht
  cases taken'
  · rfl
  · rw [hv rfl]
    rfl

theorem addWith_keepFrom {r : Reg} {b b' : Bool} (hb : b' = b) (hd : u.reg d = s.reg d) (hr : u.reg r = s.reg r) :
    addWith b' d r (u.keepFrom [] false s) = mapNext (u.keepFrom [d] true) (addWith b d r s) :=
  writeBackCarry_keepFrom (by simp [hb, hd, hr]) (by simp [hb, hd, hr])

theorem subWith_keepFrom {r : Reg} {b b' : Bool} (hb : b' = b) (hd : u.reg d = s.reg d) (hr : u.reg r = s.reg r) :
    subWith b' d r (u.keepFrom [] false s) = mapNext (u.keepFrom [d] true) (subWith b d r s) :=
  writeBackCarry_keepFrom (by simp [hb, hd, hr]) (by simp [hb, hd, hr])

theorem finishLoad_keepFrom (d : Reg) (loaded : Except Fault Word) (s u : State) :
    finishLoad d loaded (u.keepFrom [] false s) = mapNext (u.keepFrom [d] false) (finishLoad d loaded s) := by
  cases loaded
  · rfl
  · exact writeBack_keepFrom rfl

theorem afterChecks_map {α β : Type} (f : α → β) (checks : List (Option Fault)) (k : Except Fault α) :
    (afterChecks checks k).map f = afterChecks checks (k.map f) := by
  unfold afterChecks
  cases firstFault checks <;> rfl

/-- A store reads configuration and memory alone, and writes memory alone. -/
theorem storeWord_keepFrom (s u : State) (ea v : Word) :
    (storeWord s ea v).map (u.keepFrom [] false) = storeWord (u.keepFrom [] false s) ea v :=
  afterChecks_map _ _ _

theorem storeByte_keepFrom (s u : State) (ea : Word) (b : Byte) :
    (storeByte s ea b).map (u.keepFrom [] false) = storeByte (u.keepFrom [] false s) ea b :=
  afterChecks_map _ _ _

theorem finishStore_map_keepFrom (u : State) (stored : Except Fault State) :
    finishStore (stored.map (u.keepFrom [] false)) = mapNext (u.keepFrom [] false) (finishStore stored) := by
  cases stored <;> rfl

end Ends

/-! ### Every instruction -/

/-- An instruction does the same from two states that agree on pc, memory, configuration, and on the registers and the
carry it reads: what it does not write stays as it was (R12, R17). -/
theorem exec_keepFrom {i : Instr} {s u : State} (hregs : ∀ r ∈ regsRead s i, u.reg r = s.reg r)
    (hcarry : readsCarry i = true → u.c = s.c) :
    exec i (u.keepFrom [] false s) = mapNext (u.keepFrom (regsWritten s.cfg i) (writesCarry i)) (exec i s) := by
  cases i
  case ldi => exact writeBack_keepFrom rfl
  case jmpl a =>
    have ha : u.reg a = s.reg a := hregs a (by simp [regsRead])
    show Host.Outcome.next (((u.keepFrom [] false s).setReg s.cfg.linkReg s.nextPc).setPc (u.reg a)) = _
    rw [setReg_keepFrom, ha]
    rfl
  case brez r a =>
    have hr : u.reg r = s.reg r := hregs r (by simp only [regsRead]; split_ifs <;> simp)
    refine branchIf_keepFrom (by simp [hr]) fun h => ?_
    simpa using hregs a (by simp [regsRead, eq_of_beq h])
  case brnez r a =>
    have hr : u.reg r = s.reg r := hregs r (by simp only [regsRead]; split_ifs <;> simp)
    refine branchIf_keepFrom (by simp [hr]) fun h => ?_
    simpa using hregs a (by simp [regsRead, show s.reg r ≠ 0#16 by simpa using h])
  case brezi r imm7 | brnezi r imm7 =>
    have hr : u.reg r = s.reg r := hregs r (by simp [regsRead])
    exact branchIf_keepFrom (by simp [hr]) fun _ => rfl
  case add d r => exact addWith_keepFrom rfl (hregs d (by simp [regsRead])) (hregs r (by simp [regsRead]))
  case addc d r => exact addWith_keepFrom (hcarry rfl) (hregs d (by simp [regsRead])) (hregs r (by simp [regsRead]))
  case sub d r => exact subWith_keepFrom rfl (hregs d (by simp [regsRead])) (hregs r (by simp [regsRead]))
  case subc d r => exact subWith_keepFrom (hcarry rfl) (hregs d (by simp [regsRead])) (hregs r (by simp [regsRead]))
  case mul d r | mulu d r | mulh d r | mulhu d r | or d r | and d r | xor d r | cmplt d r | cmpltu d r | cmplte d r |
      cmplteu d r | cmpe d r =>
    have hd : u.reg d = s.reg d := hregs d (by simp [regsRead])
    have hr : u.reg r = s.reg r := hregs r (by simp [regsRead])
    exact writeBack_keepFrom (by simp [hd, hr])
  case mov d r =>
    exact writeBack_keepFrom (by simpa using hregs r (by simp [regsRead]))
  case ld d a =>
    have ha : u.reg a = s.reg a := hregs a (by simp [regsRead])
    show finishLoad d (loadWord s (u.reg a)) _ = _
    rw [ha, finishLoad_keepFrom]
    rfl
  case ldb d a =>
    have ha : u.reg a = s.reg a := hregs a (by simp [regsRead])
    show finishLoad d ((loadByte s (u.reg a)).map (widenByte s.cfg.ldbExtend)) _ = _
    rw [ha, finishLoad_keepFrom]
    rfl
  case st a r =>
    have ha : u.reg a = s.reg a := hregs a (by simp [regsRead])
    have hr : u.reg r = s.reg r := hregs r (by simp [regsRead])
    show finishStore (storeWord _ (u.reg a) (u.reg r)) = _
    rw [ha, hr, ← storeWord_keepFrom, finishStore_map_keepFrom]
    rfl
  case stb a r =>
    have ha : u.reg a = s.reg a := hregs a (by simp [regsRead])
    have hr : u.reg r = s.reg r := hregs r (by simp [regsRead])
    show finishStore (storeByte _ (u.reg a) (lowByte (u.reg r))) = _
    rw [ha, hr, ← storeByte_keepFrom, finishStore_map_keepFrom]
    rfl
  case addi d n | muli d n | not d | neg d | asr d | lsl d | lsr d | lsli d n | lsri d n | scb d op n | roti d dir n |
      cmpei d n =>
    have hd : u.reg d = s.reg d := hregs d (by simp [regsRead])
    exact writeBack_keepFrom (by simp [hd])

/-! ### What an instruction leaves unchanged -/

/-- What an instruction does not write is, in the next state, that of the state before. -/
theorem exec_keepFrom_self {i : Instr} {s t : State} (h : exec i s = .next t) :
    s.keepFrom (regsWritten s.cfg i) (writesCarry i) t = t := by
  have hs : exec i s = mapNext _ (exec i s) := exec_keepFrom (u := s) (fun _ _ => rfl) fun _ => rfl
  rw [h] at hs
  injection hs with hs
  exact hs.symm

/-- An instruction changes no register outside "registers written" (R12). -/
theorem exec_regsKept {i : Instr} {s t : State} (h : exec i s = .next t) : RegsKept s t (regsWritten s.cfg i) := by
  intro r hr
  rw [← exec_keepFrom_self h, State.keepFrom_reg, if_neg hr]

/-- An instruction that does not write the carry keeps it (R17). -/
theorem exec_carryKept {i : Instr} {s t : State} (hc : writesCarry i = false) (h : exec i s = .next t) :
    t.c = s.c := by
  rw [← exec_keepFrom_self h, hc]
  rfl

/-! ### Two runs that differ in the carry, or in one register -/

/-- From another carry, an instruction that does not read it does the same, but for a carry it does not write. -/
theorem exec_setCarry {i : Instr} (s : State) (b : Bool) (hi : readsCarry i = false) :
    exec i (s.setCarry b) = mapNext (fun t => if writesCarry i then t else t.setCarry b) (exec i s) :=
  calc exec i (s.setCarry b)
    _ = mapNext ((s.setCarry b).keepFrom (regsWritten s.cfg i) (writesCarry i)) (exec i s) :=
        exec_keepFrom (u := s.setCarry b) (fun _ _ => rfl) (by simp [hi])
    _ = _ := mapNext_congr fun t h => by rw [State.keepFrom_setCarry, exec_keepFrom_self h]

/-- From another value of a register it does not read, an instruction does the same, but for that register where it
does not write it. -/
theorem exec_setReg {i : Instr} {s : State} {q : Reg} (v : Word) (hq : q ∉ regsRead s i) :
    exec i (s.setReg q v) =
      mapNext (fun t => if q ∈ regsWritten s.cfg i then t else t.setReg q v) (exec i s) :=
  calc exec i (s.setReg q v)
    _ = mapNext ((s.setReg q v).keepFrom (regsWritten s.cfg i) (writesCarry i)) (exec i s) :=
        exec_keepFrom (u := s.setReg q v)
          (fun r hr => State.setReg_reg_of_ne s q v (ne_of_mem_of_not_mem hr hq)) fun _ => rfl
    _ = _ := mapNext_congr fun t h => by rw [State.keepFrom_setReg, exec_keepFrom_self h]

/-! ### The value of the carry (R17) -/

theorem addWith_carry {b : Bool} {d r : Reg} {s t : State} (h : addWith b d r s = .next t) :
    t.c = true ↔ 65536 ≤ (s.reg d).toNat + (s.reg r).toNat + b.toNat := by
  injection h with h
  subst h
  exact decide_eq_true_iff

theorem subWith_carry {b : Bool} {d r : Reg} {s t : State} (h : subWith b d r s = .next t) :
    t.c = true ↔ (s.reg d).toNat < (s.reg r).toNat + b.toNat := by
  injection h with h
  subst h
  refine decide_eq_true_iff.trans ?_
  rw [diffOf]
  omega

/-! ### The program counter (R15) -/

/-- An instruction that does not transfer control advances `pc`. -/
theorem exec_pc_of_not_transfersControl {i : Instr} {s t : State} (ht : transfersControl s i = false)
    (h : exec i s = .next t) : t.pc = s.pc + 2#16 := by
  cases exec_effect h with
  | jump a => exact absurd ht (by simp [transfersControl])
  | taken _ target hw ht' => exact absurd (ht.symm.trans ht') (by decide)
  | register | registerAndCarry | notTaken | word | byte => rfl

/-- An instruction that transfers control is jmpl or a branch, and writes its target to `pc` unchecked. -/
theorem exec_pc_of_transfersControl {i : Instr} {s t : State} (ht : transfersControl s i = true)
    (h : exec i s = .next t) :
    (∃ a, i = .jmpl a ∧ t.pc = s.reg a) ∨
    (∃ r a, (i = .brez r a ∨ i = .brnez r a) ∧ t.pc = s.reg a) ∨
    (∃ r imm7, (i = .brezi r imm7 ∨ i = .brnezi r imm7) ∧ t.pc = s.cfg.brImmTarget s.pc imm7) := by
  cases exec_effect h with
  | jump a => exact .inl ⟨a, rfl, rfl⟩
  | taken _ target hw ht' hc hb hi => exact .inr hi
  | register _ d v hw ht' | registerAndCarry _ d v c hw ht' | notTaken _ hw ht' =>
    exact absurd (ht'.symm.trans ht) (by decide)
  | word | byte => exact absurd ht (by simp [transfersControl])

/-! ### The step and the state after reset -/

/-- A step executes the instruction it fetches (R14). -/
theorem step_of_fetches {s : State} {i : Instr} (h : Fetches s i) : step s = exec i s := by
  unfold step
  rw [show fetchInstr s = .ok i from h]

/-- A well-formed configuration's `cfg.RESET_PC` is even (R20). -/
theorem resetPc_even {cfg : Config} (h : cfg.wf = true) : EvenAddr cfg.resetPc := by
  simp only [Config.wf, Bool.and_eq_true, Bool.not_eq_true'] at h
  obtain ⟨⟨hpc, -⟩, -⟩ := h
  exact hpc

/-! ### The statements -/

/-- Settles O11: the values of the carry are those of `addWith` and `subWith`, and the rest is what `exec_keepFrom`
says of the carry. -/
theorem onlyAddAndSubFamiliesTouchCarry : Obligations.OnlyAddAndSubFamiliesTouchCarry := by
  refine ⟨fun d r s t => ⟨addWith_carry, addWith_carry, subWith_carry, subWith_carry⟩,
    fun i s t => exec_carryKept, fun i s b hi => ?_⟩
  rw [exec_setCarry s b hi]
  cases exec i s <;> rfl

/-- Settles O12: both clauses are what `exec_keepFrom` says of the registers. -/
theorem registersReadAndWritten : Obligations.RegistersReadAndWritten := by
  refine ⟨fun i s t => exec_regsKept, fun i s q v hq => ?_⟩
  rw [exec_setReg v hq]
  cases exec i s <;> rfl

/-- Settles O10, by the forms a next state can have. -/
theorem pcAdvancesByTwoUnlessTransferred : Obligations.PcAdvancesByTwoUnlessTransferred := by
  refine fun i s t h => ⟨fun ht => ?_, ?_, ?_, ?_⟩
  · rw [exec_pc_of_not_transfersControl ht h, BitVec.toNat_add]
    rfl
  · rintro a rfl
    simpa using exec_pc_of_transfersControl rfl h
  · rintro r a (rfl | rfl) ht <;> simpa using exec_pc_of_transfersControl ht h
  · rintro r imm7 (rfl | rfl) ht <;> simpa using exec_pc_of_transfersControl ht h

/-- Settles O7: under the hypotheses the fetch reads the word of the two bytes. -/
theorem stepExecutesTheDecodedInstruction : Obligations.StepExecutesTheDecodedInstruction := by
  intro s lower higher i heven hmay hmay' harea harea' hlower hhigher hdecode
  have hword : fetchWord s = .ok (s.cfg.byteOrder.join lower higher) :=
    fetchWord_eq_ok.2 ⟨heven, hmay, hmay', memRead2_eq_ok.2 ⟨harea, harea', lower, higher, hlower, hhigher, rfl⟩⟩
  have hjoin : decode (s.cfg.byteOrder.join lower higher) = .ok i := by
    revert hdecode
    cases s.cfg.byteOrder <;> exact id
  exact step_of_fetches (fetchInstr_eq_ok.2 ⟨_, hword, hjoin⟩)

/-- Settles O15. -/
theorem resetStartsAtResetPc : Obligations.ResetStartsAtResetPc :=
  ⟨fun cfg h => ⟨rfl, resetPc_even h, ⟨h, reset_mem_wf cfg⟩, h, rfl⟩, rfl, by decide, rfl⟩

end Sys2Proof.Machine
end

section
/-! SUPPORT. What an instruction does to memory (20_memory.md R31, R32, R35, R37, R39): the completing loads and stores
as equivalences, and `exec_withMemory`, which says once that an instruction that is neither a load nor a store does the
same whatever memory holds and whichever byte order is configured. -/

namespace Sys2Proof.Machine

/-! ### Even addresses -/

theorem EvenAddr.not_succ {a : Word} (h : EvenAddr a) : ¬ EvenAddr (a + 1#16) := by
  simp_all [EvenAddr, BitVec.getElem_add]

theorem EvenAddr.add_two {a : Word} (h : EvenAddr a) : EvenAddr (a + 2#16) := by
  simp_all [EvenAddr, BitVec.getElem_add]

theorem EvenAddr.ne_succ {a k : Word} (ha : EvenAddr a) (hk : EvenAddr k) : a ≠ k + 1#16 := fun h =>
  hk.not_succ (h ▸ ha)

theorem EvenAddr.succ_ne {a k : Word} (ha : EvenAddr a) (hk : EvenAddr k) : a + 1#16 ≠ k :=
  (hk.ne_succ ha).symm

/-! ### Loads and stores that go on -/

theorem exec_ld_eq_next {s t : State} {d a : Reg} :
    exec (.ld d a) s = .next t ↔
      EvenAddr (s.reg a) ∧ DataByte s (s.reg a) ∧ DataByte s (s.reg a + 1#16) ∧
      ∃ lower higher, s.byteAt? (s.reg a) = some lower ∧ s.byteAt? (s.reg a + 1#16) = some higher ∧
        t = (s.setReg d (s.cfg.byteOrder.join lower higher)).advance := by
  constructor
  · intro h
    obtain ⟨v, hv, ht⟩ := finishLoad_eq_next.1 h
    obtain ⟨heven, hcode, hcode', hread⟩ := loadWord_eq_ok.1 hv
    obtain ⟨harea, harea', lower, higher, hl, hh, rfl⟩ := memRead2_eq_ok.1 hread
    injection ht with ht
    exact ⟨heven, ⟨harea, hcode⟩, ⟨harea', hcode'⟩, lower, higher, hl, hh, ht.symm⟩
  · rintro ⟨heven, h1, h2, lower, higher, hl, hh, rfl⟩
    exact exec_ld_eq heven h1 h2 hl hh

theorem exec_ldb_eq_next {s t : State} {d a : Reg} :
    exec (.ldb d a) s = .next t ↔ DataByte s (s.reg a) ∧
      ∃ b, s.byteAt? (s.reg a) = some b ∧ t = (s.setReg d (widenByte s.cfg.ldbExtend b)).advance := by
  constructor
  · intro h
    obtain ⟨v, hv, ht⟩ := finishLoad_eq_next.1 h
    cases hb : loadByte s (s.reg a) with
    | error f => simp [hb, Except.map] at hv
    | ok b =>
      obtain ⟨hdata, hbyte⟩ := loadByte_eq_ok.1 hb
      rw [hb] at hv
      injection hv with hv
      injection ht with ht
      exact ⟨hdata, b, hbyte, by rw [hv, ← ht]⟩
  · rintro ⟨hdata, b, hb, rfl⟩
    exact exec_ldb_eq hdata hb

theorem exec_st_eq_next {s t : State} {a r : Reg} :
    exec (.st a r) s = .next t ↔
      EvenAddr (s.reg a) ∧ DataByte s (s.reg a) ∧ DataByte s (s.reg a + 1#16) ∧
      t = ((s.setByte (s.reg a) (s.cfg.byteOrder.lower (s.reg r))).setByte (s.reg a + 1#16)
        (s.cfg.byteOrder.higher (s.reg r))).advance := by
  constructor
  · intro h
    obtain ⟨u, hu, rfl⟩ := finishStore_eq_next.1 h
    obtain ⟨heven, h1, h2, rfl⟩ := storeWord_eq_ok.1 hu
    exact ⟨heven, h1, h2, rfl⟩
  · rintro ⟨heven, h1, h2, rfl⟩
    exact exec_st_eq heven h1 h2

theorem exec_stb_eq_next {s t : State} {a r : Reg} :
    exec (.stb a r) s = .next t ↔
      DataByte s (s.reg a) ∧ t = (s.setByte (s.reg a) (lowByte (s.reg r))).advance := by
  constructor
  · intro h
    obtain ⟨u, hu, rfl⟩ := finishStore_eq_next.1 h
    obtain ⟨hdata, rfl⟩ := storeByte_eq_ok.1 hu
    exact ⟨hdata, rfl⟩
  · rintro ⟨hdata, rfl⟩
    exact exec_stb_eq hdata

/-! ### What a step keeps -/

/-- No instruction changes the configuration (00_scope.md R4). -/
theorem exec_cfg {i : Instr} {s t : State} (h : exec i s = .next t) : t.cfg = s.cfg := by
  cases exec_effect h <;> rfl

/-- An instruction changes no byte outside those it stores to (R31, R35). -/
theorem exec_bytesKept {i : Instr} {s t : State} (h : exec i s = .next t) : BytesKept s t (bytesWritten s i) := by
  intro k hk
  cases exec_effect h with
  | word a r =>
    obtain ⟨hk, hk'⟩ : k ≠ s.reg a ∧ k ≠ s.reg a + 1#16 := by simpa [bytesWritten] using hk
    simp [State.setByte_byteAt?, hk, hk']
  | byte a r =>
    have hk : k ≠ s.reg a := by simpa [bytesWritten] using hk
    simp [State.setByte_byteAt?, hk]
  | register | registerAndCarry | jump | taken | notTaken => rfl

/-- An instruction keeps memory in canonical form. -/
theorem exec_mem_wf {i : Instr} {s t : State} (hs : Memory.wf s.mem) (h : exec i s = .next t) :
    Memory.wf t.mem := by
  cases exec_effect h with
  | word => exact State.setByte_mem_wf _ _ (State.setByte_mem_wf _ _ hs)
  | byte => exact State.setByte_mem_wf _ _ hs
  | register | registerAndCarry | jump | taken | notTaken => exact hs

/-! ### Other memory, other byte order -/

/-- The state with another memory, accessed in another byte order. -/
def State.withMemory (order : ByteOrder) (m : Memory) (s : State) : State :=
  { s with cfg := { s.cfg with byteOrder := order }, mem := m }

theorem branchIf_withMemory (order : ByteOrder) (m : Memory) (taken : Bool) (target : Word) (s : State) :
    branchIf taken target (s.withMemory order m) = mapNext (State.withMemory order m) (branchIf taken target s) := by
  cases taken <;> rfl

/-- An instruction that is no load and no store depends neither on memory nor on the byte order, and hands memory
on (R31). -/
theorem exec_withMemory {i : Instr} {s : State} (order : ByteOrder) (m : Memory) (hr : bytesRead s i = [])
    (hw : bytesWritten s i = []) :
    exec i (s.withMemory order m) = mapNext (State.withMemory order m) (exec i s) := by
  cases i
  case brez | brnez | brezi | brnezi => exact branchIf_withMemory ..
  case ld | ldb => simp [bytesRead] at hr
  case st | stb => simp [bytesWritten] at hw
  all_goals rfl

/-! ### One byte of memory with another content -/

/-- An instruction that is no load and no store does the same whatever a byte holds. -/
theorem exec_setByte_of_noAccess {i : Instr} {s t : State} (a : Word) (b : Byte) (hr : bytesRead s i = [])
    (hw : bytesWritten s i = []) (h : exec i s = .next t) :
    ∃ t', exec i (s.setByte a b) = .next t' ∧ t'.regs = t.regs ∧ t'.pc = t.pc ∧ t'.c = t.c ∧
      BytesKept t t' [a] := by
  refine ⟨t.withMemory t.cfg.byteOrder (s.setByte a b).mem, ?_, rfl, rfl, rfl, fun k hk => ?_⟩
  · have hs := exec_withMemory s.cfg.byteOrder (s.setByte a b).mem hr hw
    rw [h] at hs
    rw [exec_cfg h]
    exact hs
  · have hk : k ≠ a := by simpa using hk
    calc (s.setByte a b).byteAt? k
      _ = s.byteAt? k := by rw [State.setByte_byteAt?, if_neg hk]
      _ = t.byteAt? k := (exec_bytesKept h k (by simp [hw])).symm

/-- An instruction does the same whatever a byte that it does not load holds (R31, R35). -/
theorem exec_setByte {i : Instr} {s t : State} {a : Word} (b : Byte) (ha : a ∉ bytesRead s i)
    (h : exec i s = .next t) :
    ∃ t', exec i (s.setByte a b) = .next t' ∧ t'.regs = t.regs ∧ t'.pc = t.pc ∧ t'.c = t.c ∧
      BytesKept t t' [a] := by
  have other : ∀ k ≠ a, (s.setByte a b).byteAt? k = s.byteAt? k := fun k hk => by
    rw [State.setByte_byteAt?, if_neg hk]
  cases i
  case ld d x =>
    obtain ⟨heven, h1, h2, lower, higher, hl, hh, rfl⟩ := exec_ld_eq_next.1 h
    obtain ⟨hne, hne'⟩ : a ≠ s.reg x ∧ a ≠ s.reg x + 1#16 := by simpa [bytesRead] using ha
    exact ⟨_, exec_ld_eq heven h1 h2 ((other _ hne.symm).trans hl) ((other _ hne'.symm).trans hh), rfl, rfl, rfl,
      fun k hk => other k (by simpa using hk)⟩
  case ldb d x =>
    obtain ⟨hdata, v, hv, rfl⟩ := exec_ldb_eq_next.1 h
    have hne : a ≠ s.reg x := by simpa [bytesRead] using ha
    exact ⟨_, exec_ldb_eq hdata ((other _ hne.symm).trans hv), rfl, rfl, rfl, fun k hk => other k (by simpa using hk)⟩
  case st x r =>
    obtain ⟨heven, h1, h2, rfl⟩ := exec_st_eq_next.1 h
    refine ⟨_, exec_st_eq heven h1 h2, rfl, rfl, rfl, fun k hk => ?_⟩
    simp [State.setByte_byteAt?, show k ≠ a by simpa using hk]
  case stb x r =>
    obtain ⟨hdata, rfl⟩ := exec_stb_eq_next.1 h
    refine ⟨_, exec_stb_eq hdata, rfl, rfl, rfl, fun k hk => ?_⟩
    simp [State.setByte_byteAt?, show k ≠ a by simpa using hk]
  all_goals exact exec_setByte_of_noAccess a b rfl rfl h

/-! ### The two bytes of every word exchanged (R32) -/

/-- The second state holds the two bytes of every even address the other way about. -/
def BytesExchanged (s s' : State) : Prop :=
  ∀ a, EvenAddr a → s'.byteAt? a = s.byteAt? (a + 1#16) ∧ s'.byteAt? (a + 1#16) = s.byteAt? a

/-- A word is read alike in the one byte order and, its bytes exchanged, in the other. -/
theorem memRead2_exchanged {s : State} {m : Memory} {a v : Word} (hlittle : s.cfg.byteOrder = .little)
    (hx : BytesExchanged s (s.withMemory .big m)) (ha : EvenAddr a) (h : memRead2 s a = .ok v) :
    memRead2 (s.withMemory .big m) a = .ok v := by
  obtain ⟨harea, harea', lower, higher, hl, hh, rfl⟩ := memRead2_eq_ok.1 h
  obtain ⟨hx, hx'⟩ := hx a ha
  exact memRead2_eq_ok.2 ⟨harea, harea', higher, lower, hx.trans hh, hx'.trans hl, by rw [hlittle]; rfl⟩

/-- So the same instruction is fetched (R43). -/
theorem fetches_exchanged {s : State} {m : Memory} {i : Instr} (hlittle : s.cfg.byteOrder = .little)
    (hx : BytesExchanged s (s.withMemory .big m)) (h : Fetches s i) : Fetches (s.withMemory .big m) i := by
  obtain ⟨w, hw, hi⟩ := fetchInstr_eq_ok.1 h
  obtain ⟨heven, hmay, hmay', hread⟩ := fetchWord_eq_ok.1 hw
  exact fetchInstr_eq_ok.2 ⟨w, fetchWord_eq_ok.2 ⟨heven, hmay, hmay', memRead2_exchanged hlittle hx heven hread⟩, hi⟩

/-- A word stored in both states, in the byte order of each, leaves them exchanged. -/
theorem BytesExchanged.setByte_setByte {s s' : State} {ea : Word} (hx : BytesExchanged s s') (hea : EvenAddr ea)
    (lower higher : Byte) :
    BytesExchanged ((s.setByte ea lower).setByte (ea + 1#16) higher)
      ((s'.setByte ea higher).setByte (ea + 1#16) lower) := by
  intro a ha
  obtain ⟨hx, hx'⟩ := hx a ha
  by_cases h : a = ea
  · simp [State.setByte_byteAt?, h, addr_ne_succ ea]
  · simp [State.setByte_byteAt?, h, ha.ne_succ hea, ha.succ_ne hea, hx, hx']

/-- An instruction other than ldb and stb keeps the states alike but for byte order and exchanged bytes. -/
theorem exec_exchanged {i : Instr} {s t : State} {m : Memory} (hlittle : s.cfg.byteOrder = .little)
    (hx : BytesExchanged s (s.withMemory .big m)) (hldb : ∀ d a, i ≠ .ldb d a) (hstb : ∀ a r, i ≠ .stb a r)
    (h : exec i s = .next t) :
    ∃ n, exec i (s.withMemory .big m) = .next (t.withMemory .big n) ∧ BytesExchanged t (t.withMemory .big n) := by
  cases i
  case ldb d a => exact absurd rfl (hldb d a)
  case stb a r => exact absurd rfl (hstb a r)
  case ld d a =>
    obtain ⟨heven, h1, h2, lower, higher, hl, hh, rfl⟩ := exec_ld_eq_next.1 h
    obtain ⟨hswap, hswap'⟩ := hx _ heven
    refine ⟨m, ?_, hx⟩
    rw [hlittle]
    exact exec_ld_eq heven h1 h2 (hswap.trans hh) (hswap'.trans hl)
  case st a r =>
    obtain ⟨heven, h1, h2, rfl⟩ := exec_st_eq_next.1 h
    rw [hlittle]
    exact ⟨_, exec_st_eq heven h1 h2, hx.setByte_setByte heven _ _⟩
  all_goals
    refine ⟨m, (exec_withMemory .big m rfl rfl).trans (congrArg _ h), fun a ha => ?_⟩
    obtain ⟨hx, hx'⟩ := hx a ha
    exact ⟨hx.trans (exec_bytesKept h _ (by simp [bytesWritten])).symm,
      hx'.trans (exec_bytesKept h _ (by simp [bytesWritten])).symm⟩

/-! ### An odd pc (R37) -/

theorem fetchWord_of_odd_pc {s : State} (h : s.pc.getLsbD 0 = true) :
    fetchWord s = .error (.misalignedFetch s.pc) := by
  simp [fetchWord, afterChecks, fetchAlignmentFault, h]

/-- A step whose fetch stops is that fault. -/
theorem step_of_fetchWord_error {s : State} {f : Fault} (h : fetchWord s = .error f) : step s = .fault f := by
  simp [step, fetchInstr, h]

/-- An instruction is fetched from an even pc alone. -/
theorem Fetches.even_pc {s : State} {i : Instr} (h : Fetches s i) : EvenAddr s.pc := by
  obtain ⟨w, hw, -⟩ := fetchInstr_eq_ok.1 h
  exact (fetchWord_eq_ok.1 hw).1

/-! ### The statements -/

/-- Settles O13: the bytes written by the forms a next state can have, the bytes read by `exec_setByte`. -/
theorem memoryReachedByLoadsAndStoresAlone : Obligations.MemoryReachedByLoadsAndStoresAlone :=
  ⟨fun _ _ _ => exec_bytesKept, fun _ _ _ _ b => exec_setByte b⟩

/-- Settles O14: every form a next state can have keeps the configuration and the canonical form. -/
theorem stepKeepsWellFormedState : Obligations.StepKeepsWellFormedState := by
  have hcfg : ∀ s t : State, step s = .next t → t.cfg = s.cfg := fun s t h => by
    obtain ⟨i, -, hexec⟩ := step_eq_next.1 h
    exact exec_cfg hexec
  refine ⟨fun s t ⟨hwf, hmem⟩ h => ?_, hcfg⟩
  obtain ⟨i, -, hexec⟩ := step_eq_next.1 h
  exact ⟨hcfg s t h ▸ hwf, exec_mem_wf hmem hexec⟩

/-- Settles O42: the second state is the first with its bytes exchanged, in the other byte order; both fetch the same
instruction, and `exec_exchanged` relates the states after it. -/
theorem byteOrderUnobservableByWordAccesses : Obligations.ByteOrderUnobservableByWordAccesses := by
  rintro s t s' ⟨hlittle, hcfg, hregs, hpc, hc, hx⟩ hstep hnobyte
  obtain ⟨i, hi, hexec⟩ := step_eq_next.1 hstep
  obtain ⟨hldb, hstb⟩ := hnobyte i hi
  obtain ⟨m, rfl⟩ : ∃ m, s' = s.withMemory .big m :=
    ⟨s'.mem, State.ext_of hcfg (fun r => by rw [State.reg, hregs]; rfl) hpc hc rfl⟩
  have hi' := fetches_exchanged hlittle hx hi
  obtain ⟨n, hexec', hx'⟩ := exec_exchanged hlittle hx hldb hstb hexec
  exact ⟨t.withMemory .big n, i, hi, hi', (step_of_fetches hi').trans hexec', rfl, rfl, rfl, rfl, hx'⟩

/-- Settles O9: an instruction is fetched at an even pc and advances it by two unless it transfers control. -/
theorem oddPcFaultsAndArisesOnlyFromTransfers : Obligations.OddPcFaultsAndArisesOnlyFromTransfers := by
  refine ⟨fun s h => step_of_fetchWord_error (fetchWord_of_odd_pc h), fun s t h hodd => ?_, fun cfg => resetPc_even⟩
  obtain ⟨i, hi, hexec⟩ := step_eq_next.1 h
  have htransfer : transfersControl s i = true := by
    by_contra hn
    have heven := hi.even_pc.add_two
    rw [← exec_pc_of_not_transfersControl (by simpa using hn) hexec] at heven
    exact absurd (hodd.symm.trans heven) (by decide)
  refine ⟨i, hi, htransfer, ?_⟩
  rcases exec_pc_of_transfersControl htransfer hexec with
    ⟨a, rfl, ht⟩ | ⟨r, a, hbranch, ht⟩ | ⟨r, imm7, hbranch, ht⟩
  · exact .inl ⟨a, rfl, ht ▸ hodd⟩
  · exact .inr (.inl ⟨r, a, hbranch, ht ▸ hodd⟩)
  · exact .inr (.inr ⟨r, imm7, hbranch, ht ▸ hodd⟩)

/-- Settles O41: each access goes on, and what is read is what the stores before it wrote. -/
theorem mixedWidthAccesses : Obligations.MixedWidthAccesses := by
  intro s x y r q d heven hy hdata hdata'
  have hdata'' : DataByte s (s.reg x + 1#16) := hy ▸ hdata'
  have hne := addr_ne_succ (s.reg x)
  constructor
  · refine ⟨_, exec_st_eq heven hdata hdata'', ?_, ?_⟩
    · refine ⟨_, exec_ldb_eq (b := s.cfg.byteOrder.lower (s.reg r)) hdata ?_, ?_⟩
      · simp [State.setByte_byteAt?, hne]
      · cases s.cfg.byteOrder <;> simp [ByteOrder.lower]
    · refine ⟨_, exec_ldb_eq (b := s.cfg.byteOrder.higher (s.reg r)) hdata' ?_, ?_⟩
      · simp [State.setByte_byteAt?, hy]
      · cases s.cfg.byteOrder <;> simp [ByteOrder.higher]
  · refine ⟨_, _, _, exec_stb_eq hdata, exec_stb_eq hdata', exec_ld_eq (lower := lowByte (s.reg r))
      (higher := lowByte (s.reg q)) heven hdata hdata'' ?_ ?_, ?_⟩
    · simp [State.setByte_byteAt?, hy, hne]
    · simp [State.setByte_byteAt?, hy]
    · cases hb : s.cfg.byteOrder <;> simp [hb, ByteOrder.join, lowByte]

end Sys2Proof.Machine
end

section
/-! SUPPORT. The encoding (30_encoding.md R50 to R60). A word is the pattern of its fields, and the ignored bits of an
instruction are one field of its pattern; `decode_eq_ok` joins both directions, the decoder's and the encoder's, in one
equivalence. Which row a word has depends on its `op6` alone, a table of 64 values. -/

namespace Sys2Proof

/-! ### A word as the pattern of its fields -/

theorem exists_append {m n : Nat} (v : BitVec (m + n)) : ∃ (x : BitVec m) (y : BitVec n), v = x ++ y :=
  ⟨v.extractLsb' n m, v.extractLsb' 0 n, by
    rw [BitVec.extractLsb'_append_extractLsb'_eq_extractLsb' (Nat.zero_add n).symm, BitVec.extractLsb'_eq_self]⟩

theorem exists_pattern (w : Word) : ∃ (op : BitVec 6) (x y : BitVec 5), w = op ++ x ++ y := by
  obtain ⟨v, y, rfl⟩ := exists_append (m := 11) (n := 5) w
  obtain ⟨op, x, rfl⟩ := exists_append (m := 6) (n := 5) v
  exact ⟨op, x, y, rfl⟩

theorem exists_pattern' (w : Word) :
    ∃ (op : BitVec 6) (x : BitVec 1) (n : BitVec 4) (y : BitVec 5), w = op ++ x ++ n ++ y := by
  obtain ⟨v, y, rfl⟩ := exists_append (m := 11) (n := 5) w
  obtain ⟨u, n, rfl⟩ := exists_append (m := 7) (n := 4) v
  obtain ⟨op, x, rfl⟩ := exists_append (m := 6) (n := 1) u
  exact ⟨op, x, n, y, rfl⟩

theorem exists_pattern7 (w : Word) : ∃ (op : BitVec 4) (imm7 : BitVec 7) (y : BitVec 5), w = op ++ imm7 ++ y := by
  obtain ⟨v, y, rfl⟩ := exists_append (m := 11) (n := 5) w
  obtain ⟨op, imm7, rfl⟩ := exists_append (m := 4) (n := 7) v
  exact ⟨op, imm7, y, rfl⟩

theorem exists_pattern8 (w : Word) : ∃ (op : BitVec 3) (imm8 : BitVec 8) (y : BitVec 5), w = op ++ imm8 ++ y := by
  obtain ⟨v, y, rfl⟩ := exists_append (m := 11) (n := 5) w
  obtain ⟨op, imm8, rfl⟩ := exists_append (m := 3) (n := 8) v
  exact ⟨op, imm8, y, rfl⟩

/-! ### The three ignored fields (R58), and none -/

theorem clear_none (w : Word) : w &&& ~~~0#16 = w := BitVec.and_allOnes
theorem fill_none (v w : Word) : v ||| (w &&& 0#16) = v := by rw [BitVec.and_zero, BitVec.or_zero]

section
variable (op op' : BitVec 6) (x x' y y' : BitVec 5)

theorem clear_low : (op ++ x ++ y) &&& ~~~0x001F#16 = op ++ x ++ 0#5 := by
  change (op ++ x ++ y) &&& (BitVec.allOnes 6 ++ BitVec.allOnes 5 ++ 0#5) = op ++ x ++ 0#5
  simp only [BitVec.and_append, BitVec.and_allOnes, BitVec.and_zero]

theorem clear_mid : (op ++ x ++ y) &&& ~~~0x03E0#16 = op ++ 0#5 ++ y := by
  change (op ++ x ++ y) &&& (BitVec.allOnes 6 ++ 0#5 ++ BitVec.allOnes 5) = op ++ 0#5 ++ y
  simp only [BitVec.and_append, BitVec.and_allOnes, BitVec.and_zero]

theorem fill_low : (op ++ x ++ 0#5) ||| ((op' ++ x' ++ y') &&& 0x001F#16) = op ++ x ++ y' := by
  change (op ++ x ++ 0#5) ||| ((op' ++ x' ++ y') &&& (0#6 ++ 0#5 ++ BitVec.allOnes 5)) = op ++ x ++ y'
  simp only [BitVec.and_append, BitVec.or_append, BitVec.and_allOnes, BitVec.and_zero, BitVec.or_zero, BitVec.zero_or]

theorem fill_mid : (op ++ 0#5 ++ y) ||| ((op' ++ x' ++ y') &&& 0x03E0#16) = op ++ x' ++ y := by
  change (op ++ 0#5 ++ y) ||| ((op' ++ x' ++ y') &&& (0#6 ++ BitVec.allOnes 5 ++ 0#5)) = op ++ x' ++ y
  simp only [BitVec.and_append, BitVec.or_append, BitVec.and_allOnes, BitVec.and_zero, BitVec.or_zero, BitVec.zero_or]
end

section
variable (op op' : BitVec 6) (x x' : BitVec 1) (n n' : BitVec 4) (y y' : BitVec 5)

theorem clear_bit9 : (op ++ x ++ n ++ y) &&& ~~~0x0200#16 = op ++ 0#1 ++ n ++ y := by
  change (op ++ x ++ n ++ y) &&& (BitVec.allOnes 6 ++ 0#1 ++ BitVec.allOnes 4 ++ BitVec.allOnes 5) = op ++ 0#1 ++ n ++ y
  simp only [BitVec.and_append, BitVec.and_allOnes, BitVec.and_zero]

theorem fill_bit9 :
    (op ++ 0#1 ++ n ++ y) ||| ((op' ++ x' ++ n' ++ y') &&& 0x0200#16) = op ++ x' ++ n ++ y := by
  change (op ++ 0#1 ++ n ++ y) ||| ((op' ++ x' ++ n' ++ y') &&& (0#6 ++ BitVec.allOnes 1 ++ 0#4 ++ 0#5)) = _
  simp only [BitVec.and_append, BitVec.or_append, BitVec.and_allOnes, BitVec.and_zero, BitVec.or_zero, BitVec.zero_or]
end

/-- The encoder writes the ignored bits as 0. -/
theorem encode_and_ignoredBits (i : Instr) : encode i &&& i.ignoredBits = 0#16 := by
  have disjoint {v m : Word} (h : v &&& ~~~m = v) : v &&& m = 0#16 := by
    grind
  cases i
  case jmpl => exact disjoint (clear_low _ _ _)
  case not | neg | asr | lsl | lsr => exact disjoint (clear_mid _ _ _)
  case lsli | lsri => exact disjoint (clear_bit9 _ _ _ _)
  all_goals exact BitVec.and_zero

/-! ### Decoding a pattern -/

section
variable (a x d : BitVec 5)

theorem decode_jmpl : decode (0b001101#6 ++ a ++ x) = .ok (.jmpl (regOfBits a)) := by
  simp [decode, op6_pattern, regHigh_pattern]

theorem decode_not : decode (0b101011#6 ++ x ++ d) = .ok (.not (regOfBits d)) := by
  simp [decode, op6_pattern, regLow_pattern]

theorem decode_neg : decode (0b101100#6 ++ x ++ d) = .ok (.neg (regOfBits d)) := by
  simp [decode, op6_pattern, regLow_pattern]

theorem decode_asr : decode (0b101101#6 ++ x ++ d) = .ok (.asr (regOfBits d)) := by
  simp [decode, op6_pattern, regLow_pattern]

theorem decode_lsl : decode (0b101110#6 ++ x ++ d) = .ok (.lsl (regOfBits d)) := by
  simp [decode, op6_pattern, regLow_pattern]

theorem decode_lsr : decode (0b101111#6 ++ x ++ d) = .ok (.lsr (regOfBits d)) := by
  simp [decode, op6_pattern, regLow_pattern]
end

section
variable (op : BitVec 6) (x : BitVec 1) (n : BitVec 4) (d : BitVec 5)

theorem bitOpOf_pattern : bitOpOf (op ++ x ++ n ++ d) = if x.getLsbD 0 then .set else .clear := by
  rw [bitOpOf, bit9_pattern]

theorem directionOf_pattern : directionOf (op ++ x ++ n ++ d) = if x.getLsbD 0 then .right else .left := by
  rw [directionOf, bit9_pattern]

theorem decode_lsli : decode (0b110000#6 ++ x ++ n ++ d) = .ok (.lsli (regOfBits d) n.toNat) := by
  simp [decode, op6_pattern', imm4Of_pattern, regLow_pattern']

theorem decode_lsri : decode (0b110001#6 ++ x ++ n ++ d) = .ok (.lsri (regOfBits d) n.toNat) := by
  simp [decode, op6_pattern', imm4Of_pattern, regLow_pattern']

theorem decode_scb :
    decode (0b110010#6 ++ x ++ n ++ d) = .ok (.scb (regOfBits d) (if x.getLsbD 0 then .set else .clear) n.toNat) := by
  simp [decode, op6_pattern', bitOpOf_pattern, imm4Of_pattern, regLow_pattern']

theorem decode_roti :
    decode (0b110011#6 ++ x ++ n ++ d) =
      .ok (.roti (regOfBits d) (if x.getLsbD 0 then .right else .left) n.toNat) := by
  simp [decode, op6_pattern', directionOf_pattern, imm4Of_pattern, regLow_pattern']
end

theorem toNat_append_eq {m n : Nat} (x : BitVec m) (y : BitVec n) : (x ++ y).toNat = x.toNat * 2 ^ n + y.toNat := by
  rw [BitVec.toNat_append, ← Nat.shiftLeft_add_eq_or_of_lt y.isLt, Nat.shiftLeft_eq]

section
variable (op : BitVec 4) (imm7 : BitVec 7) (d : BitVec 5)

theorem op6_pattern7_div : (op6 (op ++ imm7 ++ d)).toNat / 4 = op.toNat := by
  rw [op6_pattern7, toNat_append_eq]
  omega

theorem decode_brezi : decode (0b0100#4 ++ imm7 ++ d) = .ok (.brezi (regOfBits d) imm7) := by
  have hop : (op6 (0b0100#4 ++ imm7 ++ d)).toNat / 4 = 4 := op6_pattern7_div _ _ _
  rw [decode_of_op6_brezi (by omega) (by omega), imm7Of_pattern, regLow_pattern7]

theorem decode_brnezi : decode (0b0101#4 ++ imm7 ++ d) = .ok (.brnezi (regOfBits d) imm7) := by
  have hop : (op6 (0b0101#4 ++ imm7 ++ d)).toNat / 4 = 5 := op6_pattern7_div _ _ _
  rw [decode_of_op6_brnezi (by omega) (by omega), imm7Of_pattern, regLow_pattern7]

theorem decode_addi : decode (0b0110#4 ++ imm7 ++ d) = .ok (.addi (regOfBits d) imm7) := by
  have hop : (op6 (0b0110#4 ++ imm7 ++ d)).toNat / 4 = 6 := op6_pattern7_div _ _ _
  rw [decode_of_op6_addi (by omega) (by omega), imm7Of_pattern, regLow_pattern7]

theorem decode_muli : decode (0b0111#4 ++ imm7 ++ d) = .ok (.muli (regOfBits d) imm7) := by
  have hop : (op6 (0b0111#4 ++ imm7 ++ d)).toNat / 4 = 7 := op6_pattern7_div _ _ _
  rw [decode_of_op6_muli (by omega) (by omega), imm7Of_pattern, regLow_pattern7]
end

section
variable (op : BitVec 3) (imm8 : BitVec 8) (d : BitVec 5)

theorem op6_pattern8_div : (op6 (op ++ imm8 ++ d)).toNat / 8 = op.toNat := by
  rw [op6_pattern8, toNat_append_eq]
  omega

theorem decode_ldi : decode (0b000#3 ++ imm8 ++ d) = .ok (.ldi (regOfBits d) imm8) := by
  have hop : (op6 (0b000#3 ++ imm8 ++ d)).toNat / 8 = 0 := op6_pattern8_div _ _ _
  rw [decode_of_op6_lt_8 (by omega), imm8Of_pattern, regLow_pattern8]
end

/-! ### The decoder reads what the encoder wrote -/

theorem toNat_ofNat_four {n : Nat} (hn : n < 16) : (BitVec.ofNat 4 n).toNat = n := Nat.mod_eq_of_lt hn

/-- R53, R56 to R58: the decoder reads every operand the encoder wrote, whatever the ignored bits hold. -/
theorem decode_encode_or {i : Instr} (hi : i.wf = true) (x : Word) :
    decode (encode i ||| (x &&& i.ignoredBits)) = .ok i := by
  obtain ⟨_, _, _, hx⟩ := exists_pattern x
  obtain ⟨_, _, _, _, hx'⟩ := exists_pattern' x
  cases i
  case jmpl => rw [hx, encode, Instr.ignoredBits, fill_low, decode_jmpl, regOfBits_regBits]
  case not | neg | asr | lsl | lsr =>
    simp only [hx, encode, Instr.ignoredBits, fill_mid, decode_not, decode_neg, decode_asr, decode_lsl, decode_lsr,
      regOfBits_regBits]
  case lsli | lsri =>
    simp only [hx', encode, Instr.ignoredBits, fill_bit9, decode_lsli, decode_lsri,
      toNat_ofNat_four (of_decide_eq_true hi), regOfBits_regBits]
  all_goals refine (congrArg decode (fill_none _ x)).trans ?_
  case ldi => exact decode_ldi _ _
  case brezi => exact decode_brezi _ _
  case brnezi => exact decode_brnezi _ _
  case addi => exact decode_addi _ _
  case muli => exact decode_muli _ _
  case scb d op n => cases op <;> rw [encode, decode_scb, toNat_ofNat_four (of_decide_eq_true hi)] <;> rfl
  case roti d dir n => cases dir <;> rw [encode, decode_roti, toNat_ofNat_four (of_decide_eq_true hi)] <;> rfl
  case cmpei => simp [encode, decode, op6_pattern, imm5Of_pattern, regLow_pattern]
  -- two registers, in whichever order the format has them
  all_goals simp [encode, decode, op6_pattern, regHigh_pattern, regLow_pattern]

theorem decode_encode {i : Instr} (hi : i.wf = true) : decode (encode i) = .ok i := by
  simpa using decode_encode_or hi 0#16

/-! ### The encoder writes what the decoder read -/

theorem imm4Of_lt (w : Word) : imm4Of w < 16 := BitVec.isLt _

section
variable {w : Word} {n : Nat}

/-- Two 5-bit fields, both read. -/
theorem encoded_of_op6 (h : (op6 w).toNat = n) :
    BitVec.ofNat 6 n ++ regBits (regHigh w) ++ regBits (regLow w) = w &&& ~~~0#16 := by
  obtain ⟨op, x, y, rfl⟩ := exists_pattern w
  rw [op6_pattern] at h
  rw [clear_none, ← h, BitVec.ofNat_toNat, BitVec.setWidth_eq, regHigh_pattern, regLow_pattern, regBits_regOfBits,
    regBits_regOfBits]

/-- The lower field ignored: jmpl. -/
theorem encoded_clear_low (h : (op6 w).toNat = n) :
    BitVec.ofNat 6 n ++ regBits (regHigh w) ++ 0#5 = w &&& ~~~0x001F#16 := by
  obtain ⟨op, x, y, rfl⟩ := exists_pattern w
  rw [op6_pattern] at h
  rw [clear_low, ← h, BitVec.ofNat_toNat, BitVec.setWidth_eq, regHigh_pattern, regBits_regOfBits]

/-- The upper field ignored: not, neg, asr, lsl, lsr. -/
theorem encoded_clear_mid (h : (op6 w).toNat = n) :
    BitVec.ofNat 6 n ++ 0#5 ++ regBits (regLow w) = w &&& ~~~0x03E0#16 := by
  obtain ⟨op, x, y, rfl⟩ := exists_pattern w
  rw [op6_pattern] at h
  rw [clear_mid, ← h, BitVec.ofNat_toNat, BitVec.setWidth_eq, regLow_pattern, regBits_regOfBits]

/-- Bit 9 ignored: lsli, lsri. -/
theorem encoded_clear_bit9 (h : (op6 w).toNat = n) :
    BitVec.ofNat 6 n ++ 0#1 ++ BitVec.ofNat 4 (imm4Of w) ++ regBits (regLow w) = w &&& ~~~0x0200#16 := by
  obtain ⟨op, x, m, y, rfl⟩ := exists_pattern' w
  rw [op6_pattern'] at h
  rw [clear_bit9, ← h, imm4Of_pattern, regLow_pattern', regBits_regOfBits]
  simp only [BitVec.ofNat_toNat, BitVec.setWidth_eq]

theorem encode_scb_bitOpOf (h : (op6 w).toNat = 0x32) :
    encode (.scb (regLow w) (bitOpOf w) (imm4Of w)) = w &&& ~~~0#16 := by
  obtain ⟨op, x, m, y, rfl⟩ := exists_pattern' w
  rw [op6_pattern'] at h
  obtain rfl : op = 0x32#6 := BitVec.eq_of_toNat_eq h
  rw [clear_none, bitOpOf_pattern, imm4Of_pattern, regLow_pattern']
  obtain rfl | rfl : x = 0#1 ∨ x = 1#1 := BitVec.eq_zero_or_eq_one x
  all_goals simp [encode]

theorem encode_roti_directionOf (h : (op6 w).toNat = 0x33) :
    encode (.roti (regLow w) (directionOf w) (imm4Of w)) = w &&& ~~~0#16 := by
  obtain ⟨op, x, m, y, rfl⟩ := exists_pattern' w
  rw [op6_pattern'] at h
  obtain rfl : op = 0x33#6 := BitVec.eq_of_toNat_eq h
  rw [clear_none, directionOf_pattern, imm4Of_pattern, regLow_pattern']
  obtain rfl | rfl : x = 0#1 ∨ x = 1#1 := BitVec.eq_zero_or_eq_one x
  all_goals simp [encode]

theorem encoded_imm7 (h : (op6 w).toNat / 4 = n) :
    BitVec.ofNat 4 n ++ imm7Of w ++ regBits (regLow w) = w &&& ~~~0#16 := by
  obtain ⟨op, x, y, rfl⟩ := exists_pattern7 w
  rw [op6_pattern7_div] at h
  rw [clear_none, ← h, BitVec.ofNat_toNat, BitVec.setWidth_eq, imm7Of_pattern, regLow_pattern7, regBits_regOfBits]

theorem encoded_imm8 (h : (op6 w).toNat / 8 = n) :
    BitVec.ofNat 3 n ++ imm8Of w ++ regBits (regLow w) = w &&& ~~~0#16 := by
  obtain ⟨op, x, y, rfl⟩ := exists_pattern8 w
  rw [op6_pattern8_div] at h
  rw [clear_none, ← h, BitVec.ofNat_toNat, BitVec.setWidth_eq, imm8Of_pattern, regLow_pattern8, regBits_regOfBits]
end

/-- R58, R60: every operand the decoder reads is legal, and the encoder writes back all bits but the ignored ones. -/
theorem wf_and_encode_of_decode {w : Word} {i : Instr} (h : decode w = .ok i) :
    i.wf = true ∧ encode i = w &&& ~~~i.ignoredBits := by
  unfold decode at h
  split at h <;> rename_i hop <;> cases h
  -- ldi
  iterate 8 exact ⟨rfl, encoded_imm8 (n := 0) (by rw [hop])⟩
  -- jmpl; brez, brnez
  · exact ⟨rfl, encoded_clear_low hop⟩
  iterate 2 exact ⟨rfl, encoded_of_op6 hop⟩
  -- brezi; brnezi; addi; muli
  iterate 4 exact ⟨rfl, encoded_imm7 (n := 4) (by rw [hop])⟩
  iterate 4 exact ⟨rfl, encoded_imm7 (n := 5) (by rw [hop])⟩
  iterate 4 exact ⟨rfl, encoded_imm7 (n := 6) (by rw [hop])⟩
  iterate 4 exact ⟨rfl, encoded_imm7 (n := 7) (by rw [hop])⟩
  -- add to xor
  iterate 11 exact ⟨rfl, encoded_of_op6 hop⟩
  -- not, neg, asr, lsl, lsr
  iterate 5 exact ⟨rfl, encoded_clear_mid hop⟩
  -- lsli, lsri; scb; roti
  iterate 2 exact ⟨decide_eq_true (imm4Of_lt w), encoded_clear_bit9 hop⟩
  · exact ⟨decide_eq_true (imm4Of_lt w), encode_scb_bitOpOf hop⟩
  · exact ⟨decide_eq_true (imm4Of_lt w), encode_roti_directionOf hop⟩
  -- cmplt to stb
  iterate 11 exact ⟨rfl, encoded_of_op6 hop⟩

/-- A word decodes to an instruction exactly when it is the instruction's encoding but for the ignored bits. -/
theorem decode_eq_ok {w : Word} {i : Instr} :
    decode w = .ok i ↔ i.wf = true ∧ encode i = w &&& ~~~i.ignoredBits := by
  refine ⟨wf_and_encode_of_decode, fun ⟨hi, h⟩ => ?_⟩
  have hw : encode i ||| (w &&& i.ignoredBits) = w := by
    rw [h]
    grind
  rw [← hw]
  exact decode_encode_or hi w

/-! ### Changed bits -/

theorem xor_and_not_eq_iff (w m g : Word) : (w ^^^ m) &&& ~~~g = w &&& ~~~g ↔ m &&& g = m := by
  simp only [BitVec.eq_of_getElem_eq_iff, BitVec.getElem_and, BitVec.getElem_xor, BitVec.getElem_not]
  refine forall₂_congr fun k hk => ?_
  cases w[k] <;> cases m[k] <;> cases g[k] <;> decide

/-- R58: a change of a word keeps its instruction exactly when it lies within the ignored bits. -/
theorem decode_xor_eq_ok {w : Word} {i : Instr} (m : Word) (h : decode w = .ok i) :
    decode (w ^^^ m) = .ok i ↔ m &&& i.ignoredBits = m := by
  obtain ⟨hi, henc⟩ := decode_eq_ok.1 h
  rw [decode_eq_ok, henc, eq_comm (a := w &&& _), xor_and_not_eq_iff, and_iff_right hi]

/-! ### The opcode alone selects the row (R54, R56, R59) -/

/-- The mnemonic that a value of `op6` selects, if any. -/
def opcodeMnemonic (op : BitVec 6) : Option String := (decode (op ++ 0#10)).toOption.map Instr.mnemonic

theorem op6_append (op : BitVec 6) (x : BitVec 10) : op6 (op ++ x) = op :=
  BitVec.extractLsb'_append_eq_left

theorem op6_toNat (w : Word) : (op6 w).toNat = w.toNat / 1024 := by
  rw [op6, BitVec.extractLsb'_toNat, Nat.shiftRight_eq_div_pow]
  omega

/-- Ties `opcodeMnemonic` to the decoder: the other ten bits choose no row. -/
theorem mnemonic_decode (w : Word) : (decode w).toOption.map Instr.mnemonic = opcodeMnemonic (op6 w) := by
  unfold opcodeMnemonic decode
  rw [op6_append]
  split <;> rfl

theorem exists_decode_eq_ok_iff (w : Word) (name : String) :
    (∃ i, decode w = .ok i ∧ i.mnemonic = name) ↔ opcodeMnemonic (op6 w) = some name := by
  rw [← mnemonic_decode]
  cases decode w <;> simp [Except.toOption]

theorem exists_decode_eq_error_iff (w : Word) : (∃ e, decode w = .error e) ↔ opcodeMnemonic (op6 w) = none := by
  rw [← mnemonic_decode]
  cases decode w <;> simp [Except.toOption]

theorem opcodeMnemonic_eq_none_iff : ∀ op : BitVec 6,
    opcodeMnemonic op = none ↔ (0x08 ≤ op.toNat ∧ op.toNat ≤ 0x0C) ∨ op.toNat = 0x34 := by
  decide

theorem selects_opcode_iff : ∀ op : BitVec 6, ∀ row ∈ opcodeTable,
    row.selects (op ++ 0#10) = true ↔ opcodeMnemonic op = some row.mnemonic := by
  decide

/-- A mask of the table has bits of `op6` alone. -/
theorem mask_eq_append : ∀ row ∈ opcodeTable, row.mask = op6 row.mask ++ 0#10 := by decide

theorem selects_eq_selects_op6 {row : OpcodeRow} (hrow : row ∈ opcodeTable) (w : Word) :
    row.selects w = row.selects (op6 w ++ 0#10) := by
  obtain ⟨op, x, rfl⟩ := exists_append (m := 6) (n := 10) w
  have and_mask (y : BitVec 10) : (op ++ y) &&& row.mask = (op &&& op6 row.mask) ++ 0#10 := by
    rw [mask_eq_append row hrow, op6_append]
    exact BitVec.and_append.trans (by rw [BitVec.and_zero])
  rw [op6_append, OpcodeRow.selects, OpcodeRow.selects, and_mask, and_mask]

end Sys2Proof

namespace Sys2Proof.Machine

theorem step_of_decode_error {s : State} {w : Word} {e : DecodeError} (hw : fetchWord s = .ok w)
    (he : decode w = .error e) : step s = .fault (.illegalInstruction w s.pc) := by
  simp [step, fetchInstr, hw, he]

/-! ### The statements -/

/-- Settles O1: `decode_encode`, and the two bytes of a word join to the word in either order. -/
theorem decodeOfEncodeIsTheInstruction : Obligations.DecodeOfEncodeIsTheInstruction := by
  refine fun i hi => ⟨decode_encode hi, fun order rest => ?_⟩
  simp [encodeBytes, decodeBytes, decode_encode hi]

/-- Settles O2. -/
theorem encodeOfDecodeClearsIgnoredBits : Obligations.EncodeOfDecodeClearsIgnoredBits :=
  fun _ _ => wf_and_encode_of_decode

/-- Settles O3: both sides depend on `op6` alone, and agree on its 64 values. -/
theorem decodeAgreesWithOpcodeTable : Obligations.DecodeAgreesWithOpcodeTable := by
  refine ⟨rfl, fun w row hrow => ?_⟩
  rw [selects_eq_selects_op6 hrow, selects_opcode_iff _ row hrow, exists_decode_eq_ok_iff]

/-- Settles O4: whether a word decodes depends on `op6` alone, which is the word divided by 1024. -/
theorem unassignedOpcodesAreIllegal : Obligations.UnassignedOpcodesAreIllegal := by
  have unassigned (w : Word) : (∃ e, decode w = .error e) ↔
      (0x08 ≤ (op6 w).toNat ∧ (op6 w).toNat ≤ 0x0C) ∨ (op6 w).toNat = 0x34 :=
    (exists_decode_eq_error_iff w).trans (opcodeMnemonic_eq_none_iff _)
  refine ⟨fun w => ?_, unassigned, fun s w e => step_of_decode_error⟩
  rw [unassigned, op6_toNat]
  omega

/-- Settles O5: the eight patterns with an ignored field, and `decode_xor_eq_ok` for the change of bits. -/
theorem ignoredBitsHaveNoEffect : Obligations.IgnoredBitsHaveNoEffect :=
  ⟨decode_jmpl, decode_not, decode_neg, decode_asr, decode_lsl, decode_lsr, decode_lsli, decode_lsri,
    encode_and_ignoredBits, fun _ m _ h => (decode_xor_eq_ok m h).2, fun _ m _ h => (decode_xor_eq_ok m h).1⟩

/-- Settles O6, by evaluating the decoder on the thirteen words. -/
theorem sampleWordsDecode : Obligations.SampleWordsDecode := by
  unfold Obligations.SampleWordsDecode
  decide

end Sys2Proof.Machine
end

section
/-! SUPPORT. Load immediate (40_load_immediate.md R100): the operand's signed value, the meaning of ldi through
`writeBack`, and the statement about it. -/

namespace Sys2Proof.Machine

@[simp] theorem toInt_operandImm8 (imm8 : BitVec 8) : (operandImm8 imm8).toInt = imm8.toInt :=
  BitVec.toInt_signExtend_of_le (by decide)

theorem exec_ldi (d : Reg) (imm8 : BitVec 8) (s : State) :
    exec (.ldi d imm8) s = writeBack d (operandImm8 imm8) s := rfl

/-- Settles O19: `decode_ldi` for the word, `writeBack_spec` for the frame; sign extension keeps the signed value. -/
theorem ldiLoadsSignExtendedImmediate : Obligations.LdiLoadsSignExtendedImmediate := by
  refine ⟨decode_ldi, fun d imm8 s => ?_⟩
  obtain ⟨t, hnext, hreg, hframe⟩ := writeBack_spec d (operandImm8 imm8) s
  have hvalue : (t.reg d).toInt = imm8.toInt := by rw [hreg, toInt_operandImm8]
  exact ⟨t, (exec_ldi d imm8 s).trans hnext, hvalue, hframe⟩

end Sys2Proof.Machine
end

section
/-! SUPPORT. Control transfer (41_control_transfer.md): the words of brez and brnez, the branches as `branchIf` of a test
of one register with zero (R111 to R114), the jump with link (R110), the reference branch target (R115), and the four
statements about them. -/

namespace Sys2Proof.Machine

/-! ### The words of brez and brnez -/

theorem decode_brez (a s : BitVec 5) :
    decode (0b001110#6 ++ a ++ s) = .ok (.brez (regOfBits s) (regOfBits a)) := by
  simp [decode, op6_pattern, regHigh_pattern, regLow_pattern]

theorem decode_brnez (a s : BitVec 5) :
    decode (0b001111#6 ++ a ++ s) = .ok (.brnez (regOfBits s) (regOfBits a)) := by
  simp [decode, op6_pattern, regHigh_pattern, regLow_pattern]

/-! ### What the five instructions do -/

theorem exec_jmpl (a : Reg) (s : State) :
    exec (.jmpl a) s = .next ((s.setReg s.cfg.linkReg s.nextPc).setPc (s.reg a)) := rfl

theorem exec_brez (r a : Reg) (s : State) : exec (.brez r a) s = branchIf (s.reg r == 0#16) (s.reg a) s := rfl

theorem exec_brnez (r a : Reg) (s : State) : exec (.brnez r a) s = branchIf (s.reg r != 0#16) (s.reg a) s := rfl

theorem exec_brezi (r : Reg) (imm7 : BitVec 7) (s : State) :
    exec (.brezi r imm7) s = branchIf (s.reg r == 0#16) (s.cfg.brImmTarget s.pc imm7) s := rfl

theorem exec_brnezi (r : Reg) (imm7 : BitVec 7) (s : State) :
    exec (.brnezi r imm7) s = branchIf (s.reg r != 0#16) (s.cfg.brImmTarget s.pc imm7) s := rfl

theorem toNat_nextPc (s : State) : s.nextPc.toNat = (s.pc.toNat + 2) % 65536 := BitVec.toNat_add _ _

/-! ### A branch on a tested value -/

/-- A branch goes to its target exactly when the condition that its test decides holds. -/
theorem branchIf_spec_of_iff {taken : Bool} {P : Prop} (h : taken = true ↔ P) (target : Word) (s : State) :
    ∃ t, branchIf taken target s = .next t ∧
      (P → t.pc = target) ∧ (¬ P → t.pc = s.pc + 2#16) ∧ OnlyTransfers s t := by
  obtain ⟨t, hnext, hpc, hframe⟩ := branchIf_spec taken target s
  exact ⟨t, hnext, fun hP => by rw [hpc, if_pos (h.2 hP)], fun hP => by rw [hpc, if_neg (mt h.1 hP)], hframe⟩

theorem beq_zero_iff_toNat {v : Word} : (v == 0#16) = true ↔ v.toNat = 0 :=
  beq_iff_eq.trans BitVec.toNat_inj.symm

theorem bne_zero_iff_toNat {v : Word} : (v != 0#16) = true ↔ v.toNat ≠ 0 :=
  bne_iff_ne.trans BitVec.toNat_ne_iff_ne.symm

/-- The end of brez and brezi: taken exactly when the tested value is zero. -/
theorem branchIf_beq_zero_spec (v target : Word) (s : State) :
    ∃ t, branchIf (v == 0#16) target s = .next t ∧
      (v.toNat = 0 → t.pc = target) ∧ (v.toNat ≠ 0 → t.pc = s.pc + 2#16) ∧ OnlyTransfers s t :=
  branchIf_spec_of_iff beq_zero_iff_toNat target s

/-- The end of brnez and brnezi: taken exactly when the tested value is not zero. -/
theorem branchIf_bne_zero_spec (v target : Word) (s : State) :
    ∃ t, branchIf (v != 0#16) target s = .next t ∧
      (v.toNat ≠ 0 → t.pc = target) ∧ (v.toNat = 0 → t.pc = s.pc + 2#16) ∧ OnlyTransfers s t := by
  simpa only [not_not] using branchIf_spec_of_iff bne_zero_iff_toNat target s

/-! ### The reference target of an immediate branch (R115) -/

/-- Sign extension keeps the signed value, and addition and doubling are modulo 65536. -/
theorem toNat_reference_brImmTarget (pc : Word) (imm7 : BitVec 7) :
    ((Config.reference.brImmTarget pc imm7).toNat : Int) = ((pc.toNat : Int) + 2 * imm7.toInt) % 65536 := by
  have hsext : (imm7.signExtend 16).toInt = imm7.toInt := BitVec.toInt_signExtend_of_le (by decide)
  rw [reference_brImmTarget, BitVec.toNat_add, BitVec.toNat_mul, ← hsext, BitVec.toInt_eq_toNat_cond]
  simp only [BitVec.toNat_ofNat]
  split_ifs <;> omega

theorem evenAddr_iff_toNat_mod_two {a : Word} : EvenAddr a ↔ a.toNat % 2 = 0 := by
  simp [EvenAddr, BitVec.getLsbD, Nat.testBit_zero]

/-- The offset counts instructions of two bytes, so the target is even with the branch's own address. -/
theorem EvenAddr.reference_brImmTarget {pc : Word} (h : EvenAddr pc) (imm7 : BitVec 7) :
    EvenAddr (Config.reference.brImmTarget pc imm7) := by
  have htarget := toNat_reference_brImmTarget pc imm7
  rw [evenAddr_iff_toNat_mod_two] at h ⊢
  omega

/-! ### The statements -/

/-- Settles O20: `exec_jmpl` reads the target in the state before the link is written. -/
theorem jmplLinksAndJumps : Obligations.JmplLinksAndJumps := by
  refine ⟨decode_jmpl, fun a s => ⟨_, exec_jmpl a s, rfl, ?_, ?_, rfl, fun _ _ => rfl, rfl⟩⟩
  · rw [State.setPc_reg, State.setReg_reg_self, toNat_nextPc]
  · exact regsKept_setReg s s.cfg.linkReg s.nextPc

/-- Settles O21: both branches end in `branchIf` of the test of `x[s]`, with target `x[a]`. -/
theorem registerBranchesTestAndJump : Obligations.RegisterBranchesTestAndJump := by
  refine ⟨fun a s => ⟨decode_brez a s, decode_brnez a s⟩, fun r a s => ⟨?_, ?_⟩⟩
  · rw [exec_brez]
    exact branchIf_beq_zero_spec (s.reg r) (s.reg a) s
  · rw [exec_brnez]
    exact branchIf_bne_zero_spec (s.reg r) (s.reg a) s

/-- Settles O22: as for the register branches, with the target of `cfg.BR_IMM_TARGET`. -/
theorem immediateBranchesTestAndJump : Obligations.ImmediateBranchesTestAndJump := by
  refine ⟨fun imm7 s => ⟨decode_brezi imm7 s, decode_brnezi imm7 s⟩, fun r imm7 s => ⟨?_, ?_⟩⟩
  · rw [exec_brezi]
    exact branchIf_beq_zero_spec (s.reg r) (s.cfg.brImmTarget s.pc imm7) s
  · rw [exec_brnezi]
    exact branchIf_bne_zero_spec (s.reg r) (s.cfg.brImmTarget s.pc imm7) s

/-- Settles O23: a taken branch goes to its target (`exec_pc_of_transfersControl`), the reference target is its formula,
and the rule's list of exceptions expresses every function (`brImmTarget_surjective`). -/
theorem referenceBranchTargetFormula : Obligations.ReferenceBranchTargetFormula := by
  refine ⟨fun s t r imm7 => ⟨fun hr h => ?_, fun hr h => ?_⟩,
    fun pc imm7 => ⟨toNat_reference_brImmTarget pc imm7, fun h => h.reference_brImmTarget imm7⟩, fun f => ?_⟩
  · have ht : transfersControl s (.brezi r imm7) = true := decide_eq_true hr
    simpa using exec_pc_of_transfersControl ht h
  · have ht : transfersControl s (.brnezi r imm7) = true := decide_eq_true hr
    simpa using exec_pc_of_transfersControl ht h
  · obtain ⟨rule, hrule⟩ := brImmTarget_surjective Config.reference f
    exact ⟨{ Config.reference with brImm := rule }, hrule⟩

end Sys2Proof.Machine
end

section
/-! SUPPORT. Integer arithmetic (42_arithmetic.md R120 to R130): the words of the eight register instructions, the exact
values of sums, differences and 32-bit products, one specification per instruction, and the seven statements made of
them. -/

namespace Sys2Proof.Machine

/-! ### The words of add to mulhu -/

section
variable (s d : BitVec 5)

theorem decode_add : decode (0b100000#6 ++ s ++ d) = .ok (.add (regOfBits d) (regOfBits s)) := by
  simp [decode, op6_pattern, regHigh_pattern, regLow_pattern]

theorem decode_addc : decode (0b100001#6 ++ s ++ d) = .ok (.addc (regOfBits d) (regOfBits s)) := by
  simp [decode, op6_pattern, regHigh_pattern, regLow_pattern]

theorem decode_sub : decode (0b100010#6 ++ s ++ d) = .ok (.sub (regOfBits d) (regOfBits s)) := by
  simp [decode, op6_pattern, regHigh_pattern, regLow_pattern]

theorem decode_subc : decode (0b100011#6 ++ s ++ d) = .ok (.subc (regOfBits d) (regOfBits s)) := by
  simp [decode, op6_pattern, regHigh_pattern, regLow_pattern]

theorem decode_mul : decode (0b100100#6 ++ s ++ d) = .ok (.mul (regOfBits d) (regOfBits s)) := by
  simp [decode, op6_pattern, regHigh_pattern, regLow_pattern]

theorem decode_mulu : decode (0b100101#6 ++ s ++ d) = .ok (.mulu (regOfBits d) (regOfBits s)) := by
  simp [decode, op6_pattern, regHigh_pattern, regLow_pattern]

theorem decode_mulh : decode (0b100110#6 ++ s ++ d) = .ok (.mulh (regOfBits d) (regOfBits s)) := by
  simp [decode, op6_pattern, regHigh_pattern, regLow_pattern]

theorem decode_mulhu : decode (0b100111#6 ++ s ++ d) = .ok (.mulhu (regOfBits d) (regOfBits s)) := by
  simp [decode, op6_pattern, regHigh_pattern, regLow_pattern]
end

/-! ### Sums and differences -/

/-- A sum of two words and a carry is its low word and its carry. -/
theorem toNat_add_carryOf {n : Nat} (h : n < 131072) :
    (BitVec.ofNat 16 n).toNat + 65536 * (carryOf n).toNat = n := by
  rw [BitVec.toNat_ofNat, carryOf]
  by_cases hc : 65536 ≤ n
  · rw [decide_eq_true hc, Bool.toNat_true]
    omega
  · rw [decide_eq_false hc, Bool.toNat_false]
    omega

/-- A difference of two words and a borrow is its low word less its borrow. -/
theorem toNat_sub_borrowOf {x : Int} (hlow : -65536 ≤ x) (hhigh : x < 65536) :
    ((BitVec.ofInt 16 x).toNat : Int) - 65536 * ((borrowOf x).toNat : Int) = x := by
  rw [BitVec.toNat_ofInt, borrowOf]
  by_cases hb : x < 0
  · rw [decide_eq_true hb, Bool.toNat_true]
    omega
  · rw [decide_eq_false hb, Bool.toNat_false]
    omega

@[simp] theorem toInt_operandImm7 (imm7 : BitVec 7) : (operandImm7 imm7).toInt = imm7.toInt :=
  BitVec.toInt_signExtend_of_le (by decide)

/-- A word counts modulo 65536 as the signed number it is read as. -/
theorem toInt_modEq_toNat (a : Word) : a.toInt ≡ a.toNat [ZMOD 65536] := by
  rw [BitVec.toInt_eq_toNat_bmod]
  exact Int.bmod_emod

theorem toNat_add_operandImm7 (a : Word) (imm7 : BitVec 7) :
    ((a + operandImm7 imm7).toNat : Int) = (a.toNat + imm7.toInt) % 65536 := by
  have himm : imm7.toInt ≡ (operandImm7 imm7).toNat [ZMOD 65536] := by
    simpa using toInt_modEq_toNat (operandImm7 imm7)
  rw [BitVec.toNat_add, himm.add_left]
  rfl

/-! ### Products -/

/-- A product of two signed words fits in 32 bits. -/
@[simp] theorem toInt_signedProduct (a b : Word) : (signedProduct a b).toInt = a.toInt * b.toInt := by
  have hlow : -2 ^ 30 ≤ a.toInt * b.toInt := BitVec.le_toInt_mul_toInt
  have hhigh : a.toInt * b.toInt ≤ 2 ^ 30 := BitVec.toInt_mul_toInt_le
  exact BitVec.toInt_ofInt_eq_self (by decide) (by omega) (by omega)

/-- A product of two unsigned words fits in 32 bits. -/
@[simp] theorem toNat_unsignedProduct (a b : Word) : (unsignedProduct a b).toNat = a.toNat * b.toNat :=
  Nat.mod_eq_of_lt BitVec.toNat_mul_toNat_lt

theorem toNat_lowWord (p : BitVec 32) : (lowWord p).toNat = p.toNat % 65536 := BitVec.extractLsb'_toNat 0 16 p

theorem toNat_lowWord_of_toInt (p : BitVec 32) : ((lowWord p).toNat : Int) = p.toInt % 65536 := by
  rw [toNat_lowWord, BitVec.toInt_eq_toNat_cond]
  split_ifs <;> omega

theorem toNat_highWord (p : BitVec 32) : (highWord p).toNat = p.toNat / 65536 := by
  rw [highWord, BitVec.extractLsb'_toNat, Nat.shiftRight_eq_div_pow]
  omega

/-- The high word carries the sign, so the division rounds down (R128). -/
theorem toInt_highWord (p : BitVec 32) : (highWord p).toInt = p.toInt / 65536 := by
  rw [BitVec.toInt_eq_toNat_cond, BitVec.toInt_eq_toNat_cond, toNat_highWord]
  split_ifs <;> omega

/-- Read as signed or as unsigned, two words have the same product modulo 65536 (R130 (b)). -/
theorem lowWord_signedProduct_eq (a b : Word) : lowWord (signedProduct a b) = lowWord (unsignedProduct a b) := by
  have hmod : a.toInt * b.toInt ≡ a.toNat * b.toNat [ZMOD 65536] := (toInt_modEq_toNat a).mul (toInt_modEq_toNat b)
  have hnat : ((lowWord (signedProduct a b)).toNat : Int) = (lowWord (unsignedProduct a b)).toNat := by
    rw [toNat_lowWord_of_toInt, toInt_signedProduct, hmod, toNat_lowWord, toNat_unsignedProduct]
    rfl
  exact BitVec.eq_of_toNat_eq (Int.ofNat_inj.1 hnat)

/-! ### What an instruction leaves in the other registers -/

theorem OnlyWrites.reg_of_ne {s t : State} {d r : Reg} (h : OnlyWrites s t d) (hr : r ≠ d) : t.reg r = s.reg r :=
  h.1 r (by simpa using hr)

theorem OnlyWrites.carry {s t : State} {d : Reg} (h : OnlyWrites s t d) : t.c = s.c := h.2.1

theorem OnlyWritesAndCarry.reg_of_ne {s t : State} {d r : Reg} (h : OnlyWritesAndCarry s t d) (hr : r ≠ d) :
    t.reg r = s.reg r :=
  h.1 r (by simpa using hr)

/-! ### What the instructions do -/

/-- `writeBack_spec`, for a value known through what it is read as. -/
theorem writeBack_spec_of_eq {α : Type} (read : Word → α) {v : Word} {x : α} (h : read v = x) (d : Reg) (s : State) :
    ∃ t, writeBack d v s = .next t ∧ read (t.reg d) = x ∧ OnlyWrites s t d := by
  obtain ⟨t, hnext, hreg, hframe⟩ := writeBack_spec d v s
  exact ⟨t, hnext, hreg ▸ h, hframe⟩

theorem addWith_spec (b : Bool) (d r : Reg) (s : State) :
    ∃ t, addWith b d r s = .next t ∧
      (t.reg d).toNat + 65536 * t.c.toNat = (s.reg d).toNat + (s.reg r).toNat + b.toNat ∧
      OnlyWritesAndCarry s t d := by
  have hsum : sumOf (s.reg d) (s.reg r) b < 131072 := by
    have := b.toNat_le
    rw [sumOf]
    omega
  obtain ⟨t, hnext, hreg, hc, hframe⟩ := writeBackCarry_spec d _ (carryOf (sumOf (s.reg d) (s.reg r) b)) s
  exact ⟨t, hnext, by rw [hreg, hc, toNat_add_carryOf hsum, sumOf], hframe⟩

theorem subWith_spec (b : Bool) (d r : Reg) (s : State) :
    ∃ t, subWith b d r s = .next t ∧
      ((t.reg d).toNat : Int) - 65536 * (t.c.toNat : Int) = ((s.reg d).toNat : Int) - (s.reg r).toNat - b.toNat ∧
      OnlyWritesAndCarry s t d := by
  have hdiff : -65536 ≤ diffOf (s.reg d) (s.reg r) b ∧ diffOf (s.reg d) (s.reg r) b < 65536 := by
    have := b.toNat_le
    rw [diffOf]
    omega
  obtain ⟨t, hnext, hreg, hc, hframe⟩ := writeBackCarry_spec d _ (borrowOf (diffOf (s.reg d) (s.reg r) b)) s
  exact ⟨t, hnext, by rw [hreg, hc, toNat_sub_borrowOf hdiff.1 hdiff.2, diffOf], hframe⟩

section
variable (d r : Reg) (imm7 : BitVec 7) (s : State)

theorem exec_addi_spec :
    ∃ t, exec (.addi d imm7) s = .next t ∧
      ((t.reg d).toNat : Int) = ((s.reg d).toNat + imm7.toInt) % 65536 ∧ OnlyWrites s t d :=
  writeBack_spec_of_eq (fun v => (v.toNat : Int)) (toNat_add_operandImm7 (s.reg d) imm7) d s

theorem exec_muli_spec :
    ∃ t, exec (.muli d imm7) s = .next t ∧
      ((t.reg d).toNat : Int) = ((s.reg d).toInt * imm7.toInt) % 65536 ∧ OnlyWrites s t d :=
  writeBack_spec_of_eq (fun v => (v.toNat : Int))
    (by rw [toNat_lowWord_of_toInt, toInt_signedProduct, toInt_operandImm7]) d s

theorem exec_add_spec :
    ∃ t, exec (.add d r) s = .next t ∧
      (t.reg d).toNat + 65536 * t.c.toNat = (s.reg d).toNat + (s.reg r).toNat ∧ OnlyWritesAndCarry s t d :=
  addWith_spec false d r s

theorem exec_addc_spec :
    ∃ t, exec (.addc d r) s = .next t ∧
      (t.reg d).toNat + 65536 * t.c.toNat = (s.reg d).toNat + (s.reg r).toNat + s.c.toNat ∧
      OnlyWritesAndCarry s t d :=
  addWith_spec s.c d r s

theorem exec_sub_spec :
    ∃ t, exec (.sub d r) s = .next t ∧
      ((t.reg d).toNat : Int) - 65536 * (t.c.toNat : Int) = ((s.reg d).toNat : Int) - (s.reg r).toNat ∧
      OnlyWritesAndCarry s t d := by
  obtain ⟨t, hnext, hvalue, hframe⟩ := subWith_spec false d r s
  exact ⟨t, hnext, hvalue.trans (Int.sub_zero _), hframe⟩

theorem exec_subc_spec :
    ∃ t, exec (.subc d r) s = .next t ∧
      ((t.reg d).toNat : Int) - 65536 * (t.c.toNat : Int) =
        ((s.reg d).toNat : Int) - (s.reg r).toNat - s.c.toNat ∧ OnlyWritesAndCarry s t d :=
  subWith_spec s.c d r s

theorem exec_mul_spec :
    ∃ t, exec (.mul d r) s = .next t ∧
      ((t.reg d).toNat : Int) = ((s.reg d).toInt * (s.reg r).toInt) % 65536 ∧ OnlyWrites s t d :=
  writeBack_spec_of_eq (fun v => (v.toNat : Int)) (by rw [toNat_lowWord_of_toInt, toInt_signedProduct]) d s

theorem exec_mulu_spec :
    ∃ t, exec (.mulu d r) s = .next t ∧
      (t.reg d).toNat = ((s.reg d).toNat * (s.reg r).toNat) % 65536 ∧ OnlyWrites s t d :=
  writeBack_spec_of_eq BitVec.toNat (by rw [toNat_lowWord, toNat_unsignedProduct]) d s

theorem exec_mulh_spec :
    ∃ t, exec (.mulh d r) s = .next t ∧
      (t.reg d).toInt = ((s.reg d).toInt * (s.reg r).toInt) / 65536 ∧ OnlyWrites s t d :=
  writeBack_spec_of_eq BitVec.toInt (by rw [toInt_highWord, toInt_signedProduct]) d s

theorem exec_mulhu_spec :
    ∃ t, exec (.mulhu d r) s = .next t ∧
      (t.reg d).toNat = ((s.reg d).toNat * (s.reg r).toNat) / 65536 ∧ OnlyWrites s t d :=
  writeBack_spec_of_eq BitVec.toNat (by rw [toNat_highWord, toNat_unsignedProduct]) d s

/-- mul and mulu write the same low word. -/
theorem exec_mul_eq_exec_mulu : exec (.mul d r) s = exec (.mulu d r) s :=
  congrArg (writeBack d · s) (lowWord_signedProduct_eq (s.reg d) (s.reg r))

theorem exec_mov_spec : ∃ t, exec (.mov d r) s = .next t ∧ t.reg d = s.reg r ∧ OnlyWrites s t d :=
  writeBack_spec d (s.reg r) s
end

/-! ### The statements -/

/-- Settles O24: the immediate as an operand keeps its signed value, and the result is taken modulo 65536. -/
theorem addiAndMuliUseSignedImmediate : Obligations.AddiAndMuliUseSignedImmediate :=
  ⟨fun imm7 d => ⟨decode_addi imm7 d, decode_muli imm7 d⟩,
    fun d imm7 s => ⟨exec_addi_spec d imm7 s, exec_muli_spec d imm7 s⟩⟩

/-- Settles O25: `addWith` and `subWith` with no carry coming in. -/
theorem addAndSubWithoutCarryInput : Obligations.AddAndSubWithoutCarryInput :=
  ⟨fun s d => ⟨decode_add s d, decode_sub s d⟩, fun d r s => ⟨exec_add_spec d r s, exec_sub_spec d r s⟩⟩

/-- Settles O26: `addWith` and `subWith` with the carry of the state coming in. -/
theorem addcAndSubcWithCarryInput : Obligations.AddcAndSubcWithCarryInput :=
  ⟨fun s d => ⟨decode_addc s d, decode_subc s d⟩, fun d r s => ⟨exec_addc_spec d r s, exec_subc_spec d r s⟩⟩

/-- Settles O27: the signed and the unsigned product agree modulo 65536. -/
theorem mulAndMuluWriteLowWord : Obligations.MulAndMuluWriteLowWord :=
  ⟨fun s d => ⟨decode_mul s d, decode_mulu s d⟩,
    fun d r s => ⟨exec_mul_spec d r s, exec_mulu_spec d r s, exec_mul_eq_exec_mulu d r s⟩⟩

/-- Settles O28: the 32-bit product is exact, and its high word is its quotient rounded down. -/
theorem mulhAndMulhuWriteHighWord : Obligations.MulhAndMulhuWriteHighWord :=
  ⟨fun s d => ⟨decode_mulh s d, decode_mulhu s d⟩, fun d r s => ⟨exec_mulh_spec d r s, exec_mulhu_spec d r s⟩⟩

/-- Settles O43: the copy in `z` and the untouched `y` are the operands of the second product too, and quotient and
remainder by 65536 give the product back. -/
theorem productOfHighAndLowWords : Obligations.ProductOfHighAndLowWords := by
  intro x y z s hxy hxz hyz
  obtain ⟨t, hmov, hcopy, ht⟩ := exec_mov_spec z x s
  have hx : t.reg x = s.reg x := ht.reg_of_ne hxz
  have hy : t.reg y = s.reg y := ht.reg_of_ne hyz
  constructor
  · obtain ⟨u, hmul, hlow, hu⟩ := exec_mul_spec x y t
    obtain ⟨v, hmulh, hhigh, hv⟩ := exec_mulh_spec z y u
    refine ⟨t, u, v, hmov, hmul, hmulh, ?_, by rw [hv.carry, hu.carry, ht.carry]⟩
    rw [hhigh, hv.reg_of_ne hxz, hlow, hu.reg_of_ne hxz.symm, hu.reg_of_ne hxy.symm, hcopy, hx, hy]
    exact Int.ediv_mul_add_emod _ _
  · obtain ⟨u, hmulu, hlow, hu⟩ := exec_mulu_spec x y t
    obtain ⟨v, hmulhu, hhigh, hv⟩ := exec_mulhu_spec z y u
    refine ⟨t, u, v, hmov, hmulu, hmulhu, ?_, by rw [hv.carry, hu.carry, ht.carry]⟩
    rw [hhigh, hv.reg_of_ne hxz, hlow, hu.reg_of_ne hxz.symm, hu.reg_of_ne hxy.symm, hcopy, hx, hy]
    exact Nat.div_add_mod' _ _

/-- Settles O44: the high words are as before when the second instruction reads them, and it adds or subtracts the carry
that the first one left. -/
theorem multiWordAddAndSubtract : Obligations.MultiWordAddAndSubtract := by
  intro al ah bl bh s hah hbh
  constructor
  · obtain ⟨t, hadd, hlow, ht⟩ := exec_add_spec al bl s
    obtain ⟨u, haddc, hhigh, hu⟩ := exec_addc_spec ah bh t
    refine ⟨t, u, hadd, haddc, ?_⟩
    rw [ht.reg_of_ne hah.symm, ht.reg_of_ne hbh.symm] at hhigh
    rw [hu.reg_of_ne hah]
    omega
  · obtain ⟨t, hsub, hlow, ht⟩ := exec_sub_spec al bl s
    obtain ⟨u, hsubc, hhigh, hu⟩ := exec_subc_spec ah bh t
    refine ⟨t, u, hsub, hsubc, ?_⟩
    rw [ht.reg_of_ne hah.symm, ht.reg_of_ne hbh.symm] at hhigh
    rw [hu.reg_of_ne hah]
    omega

end Sys2Proof.Machine
end

section
/-! SUPPORT. Bitwise logic and negation (43_logic_negate.md R140 to R144): the words of or, and and xor, one
specification per instruction, the pairs of instructions that undo or equal one another (95_test_vectors.md section 8),
and the three statements made of them. -/

namespace Sys2Proof.Machine

/-! ### The words of or, and, xor -/

section
variable (s d : BitVec 5)

theorem decode_or : decode (0b101000#6 ++ s ++ d) = .ok (.or (regOfBits d) (regOfBits s)) := by
  simp [decode, op6_pattern, regHigh_pattern, regLow_pattern]

theorem decode_and : decode (0b101001#6 ++ s ++ d) = .ok (.and (regOfBits d) (regOfBits s)) := by
  simp [decode, op6_pattern, regHigh_pattern, regLow_pattern]

theorem decode_xor : decode (0b101010#6 ++ s ++ d) = .ok (.xor (regOfBits d) (regOfBits s)) := by
  simp [decode, op6_pattern, regHigh_pattern, regLow_pattern]
end

/-! ### Logic -/

/-- `writeBack_spec`, for a value known bit by bit. -/
theorem writeBack_spec_of_bits {v : Word} {bit : Nat → Bool} (h : ∀ i < 16, v.getLsbD i = bit i) (d : Reg)
    (s : State) :
    ∃ t, writeBack d v s = .next t ∧ OnlyWrites s t d ∧ ∀ i < 16, (t.reg d).getLsbD i = bit i := by
  obtain ⟨t, hnext, hreg, hframe⟩ := writeBack_spec d v s
  exact ⟨t, hnext, hframe, by rwa [hreg]⟩

section
variable (d r : Reg) (s : State)

theorem exec_or_spec :
    ∃ t, exec (.or d r) s = .next t ∧ OnlyWrites s t d ∧
      ∀ i < 16, (t.reg d).getLsbD i = ((s.reg d).getLsbD i || (s.reg r).getLsbD i) :=
  writeBack_spec_of_bits (fun _ _ => BitVec.getLsbD_or) d s

theorem exec_and_spec :
    ∃ t, exec (.and d r) s = .next t ∧ OnlyWrites s t d ∧
      ∀ i < 16, (t.reg d).getLsbD i = ((s.reg d).getLsbD i && (s.reg r).getLsbD i) :=
  writeBack_spec_of_bits (fun _ _ => BitVec.getLsbD_and) d s

theorem exec_xor_spec :
    ∃ t, exec (.xor d r) s = .next t ∧ OnlyWrites s t d ∧
      ∀ i < 16, (t.reg d).getLsbD i = ((s.reg d).getLsbD i != (s.reg r).getLsbD i) :=
  writeBack_spec_of_bits (fun _ _ => by rw [BitVec.getLsbD_xor, Bool.bne_eq_xor]) d s

theorem exec_not_spec : ∃ t, exec (.not d) s = .next t ∧ t.reg d = ~~~ s.reg d ∧ OnlyWrites s t d :=
  writeBack_spec d (~~~ s.reg d) s

theorem exec_not_spec_bits :
    ∃ t, exec (.not d) s = .next t ∧ OnlyWrites s t d ∧
      ∀ i < 16, (t.reg d).getLsbD i = !(s.reg d).getLsbD i :=
  writeBack_spec_of_bits (fun i hi => by simp [hi]) d s
end

/-! ### Negation -/

theorem negated_allOnes (negFFFF : Word) : negated negFFFF 0xFFFF#16 = negFFFF := if_pos rfl

theorem negated_of_ne {v : Word} (negFFFF : Word) (h : v ≠ 0xFFFF#16) : negated negFFFF v = -v :=
  if_neg h

theorem exec_neg_spec (d : Reg) (s : State) :
    ∃ t, exec (.neg d) s = .next t ∧ t.reg d = negated s.cfg.negFFFF (s.reg d) ∧ OnlyWrites s t d :=
  writeBack_spec d (negated s.cfg.negFFFF (s.reg d)) s

/-! ### Rotation -/

/-- A left rotation is undone by the right rotation by the same distance: both move bit `i` by `n` modulo the width. -/
theorem rotateRight_rotateLeft {w : Nat} (v : BitVec w) (n : Nat) : (v.rotateLeft n).rotateRight n = v := by
  ext i hi
  have hn : n % w < w := Nat.mod_lt n (by omega)
  rw [BitVec.getElem_rotateRight]
  split
  case isTrue hlow =>
    have hbit : ¬ n % w + i < n % w := by omega
    simp only [BitVec.getElem_rotateLeft, hbit, dite_false, Nat.add_sub_cancel_left]
  case isFalse hhigh =>
    have hbit : i - (w - n % w) < n % w := by omega
    have hback : w - n % w + (i - (w - n % w)) = i := by omega
    simp only [BitVec.getElem_rotateLeft, hbit, dite_true, hback]

/-- A left rotation is the right rotation by the rest of the width. -/
theorem rotateLeft_eq_rotateRight {w n : Nat} (v : BitVec w) (h : 0 < n) (h' : n < w) :
    v.rotateLeft n = v.rotateRight (w - n) := by
  have hrest : w - n < w := by omega
  rw [BitVec.rotateLeft_def, BitVec.rotateRight_def, Nat.mod_eq_of_lt h', Nat.mod_eq_of_lt hrest,
    Nat.sub_sub_self h'.le, BitVec.or_comm]

theorem exec_roti_spec (d : Reg) (dir : Direction) (n : Nat) (s : State) :
    ∃ t, exec (.roti d dir n) s = .next t ∧ t.reg d = rotated dir n (s.reg d) ∧ OnlyWrites s t d :=
  writeBack_spec d (rotated dir n (s.reg d)) s

/-! ### Pairs of instructions -/

section
variable (d r : Reg) (s : State)

/-- Sum and difference agree modulo 65536 with what they are taken of, and a word is below 65536. -/
theorem exec_add_exec_sub (h : d ≠ r) :
    ∃ t u, exec (.add d r) s = .next t ∧ exec (.sub d r) t = .next u ∧ u.reg d = s.reg d := by
  obtain ⟨t, hadd, hsum, ht⟩ := exec_add_spec d r s
  obtain ⟨u, hsub, hdiff, -⟩ := exec_sub_spec d r t
  rw [ht.reg_of_ne h.symm] at hdiff
  exact ⟨t, u, hadd, hsub, BitVec.eq_of_toNat_eq (by omega)⟩

theorem exec_not_exec_not : ∃ t u, exec (.not d) s = .next t ∧ exec (.not d) t = .next u ∧ u.reg d = s.reg d := by
  obtain ⟨t, hfirst, ht, -⟩ := exec_not_spec d s
  obtain ⟨u, hsecond, hu, -⟩ := exec_not_spec d t
  exact ⟨t, u, hfirst, hsecond, by rw [hu, ht, BitVec.not_not]⟩

theorem exec_roti_left_exec_roti_right (n : Nat) :
    ∃ t u, exec (.roti d .left n) s = .next t ∧ exec (.roti d .right n) t = .next u ∧ u.reg d = s.reg d := by
  obtain ⟨t, hleft, ht, -⟩ := exec_roti_spec d .left n s
  obtain ⟨u, hright, hu, -⟩ := exec_roti_spec d .right n t
  refine ⟨t, u, hleft, hright, ?_⟩
  rw [hu, ht]
  exact rotateRight_rotateLeft (s.reg d) n

theorem exec_roti_left_eq_exec_roti_right {n : Nat} (h : 1 ≤ n) (h' : n < 16) :
    exec (.roti d .left n) s = exec (.roti d .right (16 - n)) s :=
  congrArg (writeBack d · s) (rotateLeft_eq_rotateRight (s.reg d) h h')

theorem exec_addi_one : exec (.addi d 1#7) s = writeBack d (s.reg d + 1#16) s := rfl

/-- The two's complement is the inverse plus one. -/
theorem exec_neg_eq_exec_not_exec_addi (h : s.reg d ≠ 0xFFFF#16) :
    ∃ t u v, exec (.neg d) s = .next t ∧ exec (.not d) s = .next u ∧ exec (.addi d 1#7) u = .next v ∧
      t.reg d = v.reg d := by
  obtain ⟨t, hneg, ht, -⟩ := exec_neg_spec d s
  obtain ⟨u, hnot, hu, -⟩ := exec_not_spec d s
  obtain ⟨v, haddi, hv, -⟩ := writeBack_spec d (u.reg d + 1#16) u
  refine ⟨t, u, v, hneg, hnot, (exec_addi_one d u).trans haddi, ?_⟩
  rw [ht, negated_of_ne s.cfg.negFFFF h, hv, hu, BitVec.neg_eq_not_add]
end

/-! ### The statements -/

/-- Settles O29: each instruction writes back its operation on words, which is known bit by bit. -/
theorem logicIsBitwise : Obligations.LogicIsBitwise :=
  ⟨fun s d => ⟨decode_or s d, decode_and s d, decode_xor s d, decode_not s d⟩,
    fun d r s => ⟨exec_or_spec d r s, exec_and_spec d r s, exec_xor_spec d r s, exec_not_spec_bits d s⟩⟩

/-- Settles O30: `negated` is the parameter at 0xFFFF and the two's complement elsewhere. -/
theorem negIsTwosComplementButForFFFF : Obligations.NegIsTwosComplementButForFFFF := by
  refine ⟨decode_neg, fun d s => ?_, rfl⟩
  obtain ⟨t, hnext, hreg, hframe⟩ := exec_neg_spec d s
  refine ⟨t, hnext, hframe, fun h => ?_, fun h => ?_⟩
  · have hall : s.reg d = 0xFFFF#16 := BitVec.eq_of_toNat_eq h
    rw [hreg, hall, negated_allOnes]
  · have hne : s.reg d ≠ 0xFFFF#16 := fun hall => h (congrArg BitVec.toNat hall)
    rw [hreg, negated_of_ne _ hne, BitVec.toNat_neg]

/-- Settles O45: the pairs above. The second instruction of a pair reads in `Rd` what the first one wrote, and add
leaves the other operand as it was. -/
theorem inversePairsRestoreRegister : Obligations.InversePairsRestoreRegister := fun d r s =>
  ⟨exec_add_exec_sub d r s, exec_not_exec_not d s, fun n _ => exec_roti_left_exec_roti_right d s n,
    fun _ => exec_roti_left_eq_exec_roti_right d s, exec_neg_eq_exec_not_exec_addi d s⟩

end Sys2Proof.Machine
end

section
/-! SUPPORT. Shifts, bit set/clear, rotate (44_shift_bit.md R150 to R156): where each operation puts the bits of a word,
one specification per instruction, and the four statements made of them. The words' decodings are those of the section
on the encoding. -/

namespace Sys2Proof.Machine

/-! ### Shifts by one place -/

section
variable (v : Word)

theorem getLsbD_sshiftRight_one :
    (v.sshiftRight 1).getLsbD 15 = v.getLsbD 15 ∧ ∀ i < 15, (v.sshiftRight 1).getLsbD i = v.getLsbD (i + 1) := by
  constructor
  · simpa [BitVec.msb_eq_getLsbD_last] using BitVec.msb_sshiftRight (x := v) (n := 1)
  · intro i hi
    have hi16 : ¬ 16 ≤ i := by omega
    have hnext : 1 + i < 16 := by omega
    rw [BitVec.getLsbD_sshiftRight, if_pos hnext, Nat.add_comm]
    simp only [hi16, decide_false, Bool.not_false, Bool.true_and]

theorem getLsbD_shiftLeft_one :
    (v <<< 1).getLsbD 0 = false ∧ ∀ i < 15, (v <<< 1).getLsbD (i + 1) = v.getLsbD i := by
  constructor
  · simp
  · intro i hi
    have hi16 : i + 1 < 16 := by omega
    have hone : ¬ i + 1 < 1 := by omega
    rw [BitVec.getLsbD_shiftLeft, Nat.add_sub_cancel]
    simp only [hi16, hone, decide_true, decide_false, Bool.not_false, Bool.true_and]

theorem getLsbD_ushiftRight_one :
    (v >>> 1).getLsbD 15 = false ∧ ∀ i < 15, (v >>> 1).getLsbD i = v.getLsbD (i + 1) := by
  constructor
  · simp
  · intro i _
    rw [BitVec.getLsbD_ushiftRight, Nat.add_comm]
end

section
variable (d : Reg) (s : State)

theorem exec_asr_spec :
    ∃ t, exec (.asr d) s = .next t ∧ OnlyWrites s t d ∧
      (t.reg d).getLsbD 15 = (s.reg d).getLsbD 15 ∧ ∀ i < 15, (t.reg d).getLsbD i = (s.reg d).getLsbD (i + 1) := by
  obtain ⟨t, hnext, hreg, hframe⟩ := writeBack_spec d ((s.reg d).sshiftRight 1) s
  exact ⟨t, hnext, hframe, hreg ▸ getLsbD_sshiftRight_one (s.reg d)⟩

theorem exec_lsl_spec :
    ∃ t, exec (.lsl d) s = .next t ∧ OnlyWrites s t d ∧
      (t.reg d).getLsbD 0 = false ∧ ∀ i < 15, (t.reg d).getLsbD (i + 1) = (s.reg d).getLsbD i := by
  obtain ⟨t, hnext, hreg, hframe⟩ := writeBack_spec d (s.reg d <<< 1) s
  exact ⟨t, hnext, hframe, hreg ▸ getLsbD_shiftLeft_one (s.reg d)⟩

theorem exec_lsr_spec :
    ∃ t, exec (.lsr d) s = .next t ∧ OnlyWrites s t d ∧
      (t.reg d).getLsbD 15 = false ∧ ∀ i < 15, (t.reg d).getLsbD i = (s.reg d).getLsbD (i + 1) := by
  obtain ⟨t, hnext, hreg, hframe⟩ := writeBack_spec d (s.reg d >>> 1) s
  exact ⟨t, hnext, hframe, hreg ▸ getLsbD_ushiftRight_one (s.reg d)⟩
end

/-! ### Shifts by a distance -/

section
variable (d : Reg) (n : Nat) (s : State)

theorem exec_lsli_spec :
    ∃ t, exec (.lsli d n) s = .next t ∧ (t.reg d).toNat = ((s.reg d).toNat * 2 ^ n) % 65536 ∧ OnlyWrites s t d :=
  writeBack_spec_of_eq BitVec.toNat (by rw [BitVec.toNat_shiftLeft, Nat.shiftLeft_eq]) d s

theorem exec_lsri_spec :
    ∃ t, exec (.lsri d n) s = .next t ∧ (t.reg d).toNat = (s.reg d).toNat / 2 ^ n ∧ OnlyWrites s t d :=
  writeBack_spec_of_eq BitVec.toNat (by rw [BitVec.toNat_ushiftRight, Nat.shiftRight_eq_div_pow]) d s
end

/-! ### Setting and clearing a bit -/

/-- The mask of scb has one bit, at the position. -/
theorem getLsbD_one_shiftLeft (n : Nat) {i : Nat} (hi : i < 16) : (1#16 <<< n).getLsbD i = decide (i = n) := by
  rw [← BitVec.twoPow_eq, BitVec.getLsbD_twoPow]
  by_cases h : i = n
  · subst h
    simp [hi]
  · simp [h, Ne.symm h]

theorem getLsbD_withBit (op : BitOp) (n : Nat) (v : Word) {i : Nat} (hi : i < 16) :
    (withBit op n v).getLsbD i = if i = n then decide (op = .set) else v.getLsbD i := by
  cases op with
  | set =>
    rw [withBit, BitVec.getLsbD_or, getLsbD_one_shiftLeft n hi]
    split_ifs with h <;> simp [h]
  | clear =>
    rw [withBit, BitVec.getLsbD_and, BitVec.getLsbD_not, getLsbD_one_shiftLeft n hi]
    split_ifs with h <;> simp [h, hi]

theorem exec_scb_spec (d : Reg) (op : BitOp) (n : Nat) (s : State) :
    ∃ t, exec (.scb d op n) s = .next t ∧ OnlyWrites s t d ∧
      ∀ i < 16, (t.reg d).getLsbD i = if i = n then decide (op = .set) else (s.reg d).getLsbD i :=
  writeBack_spec_of_bits (fun _ => getLsbD_withBit op n (s.reg d)) d s

/-! ### Rotation, bit by bit -/

section
variable {w i : Nat} (v : BitVec w) (n : Nat)

/-- The two branches of a right rotation are the sum `i + n` modulo the width without and with the wrap. -/
theorem getLsbD_rotateRight_eq_add_mod (hi : i < w) : (v.rotateRight n).getLsbD i = v.getLsbD ((i + n) % w) := by
  have hn : n % w < w := Nat.mod_lt n (by omega)
  rw [BitVec.getLsbD_rotateRight, ← Nat.add_mod_mod]
  by_cases hlow : i < w - n % w
  · have hsum : (i + n % w) % w = n % w + i := by rw [Nat.mod_eq_of_lt (by omega), Nat.add_comm]
    simp [hlow, hsum]
  · have hwrap : (i + n % w) % w = i - (w - n % w) := by
      rw [Nat.mod_eq_sub_mod (by omega), Nat.mod_eq_of_lt (by omega)]
      omega
    simp [hlow, hi, hwrap]

/-- The right rotation that undoes the left one reads each bit from where the left one put it. -/
theorem getLsbD_rotateLeft_add_mod (hi : i < w) : (v.rotateLeft n).getLsbD ((i + n) % w) = v.getLsbD i := by
  rw [← getLsbD_rotateRight_eq_add_mod (v.rotateLeft n) n hi, rotateRight_rotateLeft]
end

section
variable (d : Reg) (n : Nat) (s : State)

theorem exec_roti_left_spec :
    ∃ t, exec (.roti d .left n) s = .next t ∧ OnlyWrites s t d ∧
      ∀ i < 16, (t.reg d).getLsbD ((i + n) % 16) = (s.reg d).getLsbD i := by
  obtain ⟨t, hnext, hreg, hframe⟩ := exec_roti_spec d .left n s
  exact ⟨t, hnext, hframe, fun _ hi => hreg ▸ getLsbD_rotateLeft_add_mod (s.reg d) n hi⟩

theorem exec_roti_right_spec :
    ∃ t, exec (.roti d .right n) s = .next t ∧ OnlyWrites s t d ∧
      ∀ i < 16, (t.reg d).getLsbD i = (s.reg d).getLsbD ((i + n) % 16) :=
  writeBack_spec_of_bits (fun _ => getLsbD_rotateRight_eq_add_mod (s.reg d) n) d s
end

/-! ### The statements -/

/-- Settles O31: each instruction writes back the shifted word, whose bits are known one by one. -/
theorem shiftsByOnePlace : Obligations.ShiftsByOnePlace :=
  ⟨fun x d => ⟨decode_asr x d, decode_lsl x d, decode_lsr x d⟩,
    fun d s => ⟨exec_asr_spec d s, exec_lsl_spec d s, exec_lsr_spec d s⟩⟩

/-- Settles O32: a shift by `n` places is a product or a quotient by `2 ^ n`. -/
theorem shiftsByImmediate : Obligations.ShiftsByImmediate :=
  ⟨fun x n d => ⟨decode_lsli x n d, decode_lsri x n d⟩, fun d n s _ => ⟨exec_lsli_spec d n s, exec_lsri_spec d n s⟩⟩

/-- Settles O33: `getLsbD_withBit` at the position and away from it. -/
theorem scbSetsOrClearsOneBit : Obligations.ScbSetsOrClearsOneBit := by
  refine ⟨fun n d => ⟨decode_scb 1#1 n d, decode_scb 0#1 n d⟩, fun d op n s hn => ?_⟩
  obtain ⟨t, hnext, hframe, hbits⟩ := exec_scb_spec d op n s
  refine ⟨t, hnext, hframe, ?_, fun i hi hne => (hbits i hi).trans (if_neg hne)⟩
  rw [hbits n hn, if_pos rfl]
  cases op <;> rfl

/-- Settles O34: a right rotation reads bit `(i + n) % 16`, and a left one is undone by it. -/
theorem rotiRotatesByDistance : Obligations.RotiRotatesByDistance :=
  ⟨fun n d => ⟨decode_roti 0#1 n d, decode_roti 1#1 n d⟩,
    fun d n s _ => ⟨exec_roti_left_spec d n s, exec_roti_right_spec d n s⟩⟩

end Sys2Proof.Machine
end

section
/-! SUPPORT. Comparisons and register move (45_compare_move.md R160 to R166): the words of the seven instructions, the
end of a comparison as a truth value written back, one specification per instruction, and the two statements made of
them. -/

namespace Sys2Proof.Machine

/-! ### The words of cmplt to mov -/

section
variable (s d : BitVec 5)

theorem decode_cmplt : decode (0b110101#6 ++ s ++ d) = .ok (.cmplt (regOfBits d) (regOfBits s)) := by
  simp [decode, op6_pattern, regHigh_pattern, regLow_pattern]

theorem decode_cmpltu : decode (0b110110#6 ++ s ++ d) = .ok (.cmpltu (regOfBits d) (regOfBits s)) := by
  simp [decode, op6_pattern, regHigh_pattern, regLow_pattern]

theorem decode_cmplte : decode (0b110111#6 ++ s ++ d) = .ok (.cmplte (regOfBits d) (regOfBits s)) := by
  simp [decode, op6_pattern, regHigh_pattern, regLow_pattern]

theorem decode_cmplteu : decode (0b111000#6 ++ s ++ d) = .ok (.cmplteu (regOfBits d) (regOfBits s)) := by
  simp [decode, op6_pattern, regHigh_pattern, regLow_pattern]

theorem decode_cmpe : decode (0b111001#6 ++ s ++ d) = .ok (.cmpe (regOfBits d) (regOfBits s)) := by
  simp [decode, op6_pattern, regHigh_pattern, regLow_pattern]

theorem decode_cmpei : decode (0b111010#6 ++ s ++ d) = .ok (.cmpei (regOfBits d) s) := by
  simp [decode, op6_pattern, imm5Of_pattern, regLow_pattern]

theorem decode_mov : decode (0b111011#6 ++ s ++ d) = .ok (.mov (regOfBits d) (regOfBits s)) := by
  simp [decode, op6_pattern, regHigh_pattern, regLow_pattern]
end

/-! ### A truth value written back -/

theorem toNat_truthWord_of_iff {b : Bool} {P : Prop} [Decidable P] (h : b = true ↔ P) :
    (truthWord b).toNat = if P then 1 else 0 := by
  by_cases hP : P
  · rw [if_pos hP, h.2 hP]
    rfl
  · rw [if_neg hP, Bool.eq_false_iff.2 (mt h.1 hP)]
    rfl

/-- The end of every comparison: `Rd` becomes 1 exactly when the condition that its test decides holds. -/
theorem writeBack_truthWord_spec {b : Bool} {P : Prop} [Decidable P] (h : b = true ↔ P) (d : Reg) (s : State) :
    ∃ t, writeBack d (truthWord b) s = .next t ∧ OnlyWrites s t d ∧ (t.reg d).toNat = if P then 1 else 0 := by
  obtain ⟨t, hnext, hvalue, hframe⟩ := writeBack_spec_of_eq BitVec.toNat (toNat_truthWord_of_iff h) d s
  exact ⟨t, hnext, hframe, hvalue⟩

/-! ### What the instructions do -/

@[simp] theorem toInt_operandImm5 (imm5 : BitVec 5) : (operandImm5 imm5).toInt = imm5.toInt :=
  BitVec.toInt_signExtend_of_le (by decide)

/-- Words are equal when their signed readings are, and sign extension keeps the reading of the immediate. -/
theorem beq_operandImm5_iff_toInt {v : Word} {imm5 : BitVec 5} :
    (v == operandImm5 imm5) = true ↔ v.toInt = imm5.toInt := by
  rw [beq_iff_eq, ← BitVec.toInt_inj, toInt_operandImm5]

section
variable (d r : Reg) (imm5 : BitVec 5) (s : State)

theorem exec_cmplt_spec :
    ∃ t, exec (.cmplt d r) s = .next t ∧ OnlyWrites s t d ∧
      (t.reg d).toNat = if (s.reg d).toInt < (s.reg r).toInt then 1 else 0 :=
  writeBack_truthWord_spec BitVec.slt_iff_toInt_lt d s

theorem exec_cmpltu_spec :
    ∃ t, exec (.cmpltu d r) s = .next t ∧ OnlyWrites s t d ∧
      (t.reg d).toNat = if (s.reg d).toNat < (s.reg r).toNat then 1 else 0 :=
  writeBack_truthWord_spec BitVec.ult_iff_toNat_lt d s

theorem exec_cmplte_spec :
    ∃ t, exec (.cmplte d r) s = .next t ∧ OnlyWrites s t d ∧
      (t.reg d).toNat = if (s.reg d).toInt ≤ (s.reg r).toInt then 1 else 0 :=
  writeBack_truthWord_spec BitVec.sle_iff_toInt_le d s

theorem exec_cmplteu_spec :
    ∃ t, exec (.cmplteu d r) s = .next t ∧ OnlyWrites s t d ∧
      (t.reg d).toNat = if (s.reg d).toNat ≤ (s.reg r).toNat then 1 else 0 :=
  writeBack_truthWord_spec BitVec.ule_iff_toNat_le d s

theorem exec_cmpe_spec :
    ∃ t, exec (.cmpe d r) s = .next t ∧ OnlyWrites s t d ∧
      (t.reg d).toNat = if (s.reg d).toNat = (s.reg r).toNat then 1 else 0 :=
  writeBack_truthWord_spec (beq_iff_eq.trans BitVec.toNat_inj.symm) d s

theorem exec_cmpei_spec :
    ∃ t, exec (.cmpei d imm5) s = .next t ∧ OnlyWrites s t d ∧
      (t.reg d).toNat = if (s.reg d).toInt = imm5.toInt then 1 else 0 :=
  writeBack_truthWord_spec beq_operandImm5_iff_toInt d s
end

/-! ### The statements -/

/-- Settles O35: each test decides its ordering in the signed or the unsigned reading. -/
theorem orderComparesWriteTruthValue : Obligations.OrderComparesWriteTruthValue :=
  ⟨fun s d => ⟨decode_cmplt s d, decode_cmpltu s d, decode_cmplte s d, decode_cmplteu s d⟩,
    fun d r s => ⟨exec_cmplt_spec d r s, exec_cmpltu_spec d r s, exec_cmplte_spec d r s, exec_cmplteu_spec d r s⟩⟩

/-- Settles O36: a word is determined by its unsigned and by its signed reading. -/
theorem equalityComparesAndMov : Obligations.EqualityComparesAndMov := by
  refine ⟨fun s d => ⟨decode_cmpe s d, decode_cmpei s d, decode_mov s d⟩,
    fun d r imm5 s => ⟨exec_cmpe_spec d r s, exec_cmpei_spec d imm5 s, ?_⟩⟩
  obtain ⟨t, hnext, hvalue, hframe⟩ := exec_mov_spec d r s
  exact ⟨t, hnext, hframe, hvalue⟩

end Sys2Proof.Machine
end

section
/-! SUPPORT. Loads and stores (46_load_store.md R170 to R173): the words of ld, ldb, st and stb, the checks of a word
and of a byte access as two lists (60_exceptions.md R203, checks 5 and 6) with one lemma per check that says which fault
it raises, the access as a computation behind its list, and the four statements made of them. -/

namespace Sys2Proof.Machine

/-! ### The words of ld to stb -/

section
variable (a x : BitVec 5)

theorem decode_ld : decode (0b111100#6 ++ a ++ x) = .ok (.ld (regOfBits x) (regOfBits a)) := by
  simp [decode, op6_pattern, regHigh_pattern, regLow_pattern]

theorem decode_ldb : decode (0b111101#6 ++ a ++ x) = .ok (.ldb (regOfBits x) (regOfBits a)) := by
  simp [decode, op6_pattern, regHigh_pattern, regLow_pattern]

theorem decode_st : decode (0b111110#6 ++ a ++ x) = .ok (.st (regOfBits a) (regOfBits x)) := by
  simp [decode, op6_pattern, regHigh_pattern, regLow_pattern]

theorem decode_stb : decode (0b111111#6 ++ a ++ x) = .ok (.stb (regOfBits a) (regOfBits x)) := by
  simp [decode, op6_pattern, regHigh_pattern, regLow_pattern]
end

/-! ### Single checks that fail -/

section
variable {s : State} {a ea : Word} {f : Fault}

theorem alignmentFault_of_odd (h : ¬ EvenAddr ea) : alignmentFault ea = some (.misalignedAccess ea) :=
  if_pos (by simpa [EvenAddr] using h)

theorem codeFault_of_mem {bytes : List Word} (ha : a ∈ bytes) (h : s.cfg.inCode a = true) :
    codeFault s ea bytes = some (.codeRegionAccess ea) :=
  if_pos (List.any_eq_true.2 ⟨a, ha, h⟩)

theorem areaFault_of_unmapped (h : s.cfg.area a = .unmapped) : areaFault s a = some (.unmappedAccess a) := by
  simp [areaFault, h]

theorem areaFault_of_device (h : s.cfg.area a = .device) : areaFault s a = some (.unmodelledDevice a) := by
  simp [areaFault, h]

theorem cellAt_of_unwritten (h : s.byteAt? a = none) : cellAt s a = .error (.uninitialisedRead a) := by
  simp [cellAt, h]

theorem afterChecks_of_some {α : Type} {checks : List (Option Fault)} (k : Except Fault α)
    (h : firstFault checks = some f) : afterChecks checks k = .error f := by
  simp [afterChecks, h]

theorem afterChecks_afterChecks {α : Type} (l m : List (Option Fault)) (k : Except Fault α) :
    afterChecks l (afterChecks m k) = afterChecks (l ++ m) k := by
  induction l with
  | nil => rfl
  | cons c l ih =>
    cases c with
    | none => exact ih
    | some f => rfl
end

/-! ### The checks of a word access -/

/-- The checks 5 and 6 of R203 for the two bytes at an address, in their order. -/
def wordChecks (s : State) (ea : Word) : List (Option Fault) :=
  [alignmentFault ea, codeFault s ea [ea, ea + 1#16], areaFault s ea, areaFault s (ea + 1#16)]

section
variable {s : State} {ea : Word}

theorem wordChecks_of_odd (h : ¬ EvenAddr ea) : firstFault (wordChecks s ea) = some (.misalignedAccess ea) := by
  rw [wordChecks, alignmentFault_of_odd h, firstFault_some]

theorem wordChecks_of_inCode (heven : EvenAddr ea)
    (h : s.cfg.inCode ea = true ∨ s.cfg.inCode (ea + 1#16) = true) :
    firstFault (wordChecks s ea) = some (.codeRegionAccess ea) := by
  have hcode : codeFault s ea [ea, ea + 1#16] = some (.codeRegionAccess ea) :=
    h.elim (codeFault_of_mem (by simp)) (codeFault_of_mem (by simp))
  rw [wordChecks, alignmentFault_eq_none.2 heven, firstFault_none, hcode, firstFault_some]

/-- Behind the checks of alignment and code region, the areas decide. -/
theorem wordChecks_of_outside_code (heven : EvenAddr ea) (hcode : s.cfg.inCode ea = false)
    (hcode' : s.cfg.inCode (ea + 1#16) = false) :
    firstFault (wordChecks s ea) = firstFault [areaFault s ea, areaFault s (ea + 1#16)] := by
  have hnone : codeFault s ea [ea, ea + 1#16] = none := codeFault_eq_none.2 (by simp [hcode, hcode'])
  rw [wordChecks, alignmentFault_eq_none.2 heven, firstFault_none, hnone, firstFault_none]

theorem wordChecks_of_dataByte (heven : EvenAddr ea) (h : DataByte s ea) (h' : DataByte s (ea + 1#16)) :
    firstFault (wordChecks s ea) = none := by
  rw [wordChecks_of_outside_code heven h.2 h'.2, areaFault_eq_none.2 h.1, areaFault_eq_none.2 h'.1]
  rfl

/-- An access that answers with the first check of `wordChecks` that fails: what it answers in each case. -/
theorem wordChecks_faults {x : Result} (hx : ∀ {f}, firstFault (wordChecks s ea) = some f → x = .fault f) :
    (¬ EvenAddr ea → x = .fault (.misalignedAccess ea)) ∧
    (EvenAddr ea → (s.cfg.inCode ea = true ∨ s.cfg.inCode (ea + 1#16) = true) →
      x = .fault (.codeRegionAccess ea)) ∧
    (EvenAddr ea → s.cfg.inCode ea = false → s.cfg.inCode (ea + 1#16) = false →
      (s.cfg.area ea = .unmapped → x = .fault (.unmappedAccess ea)) ∧
      (s.cfg.area ea = .device → x = .fault (.unmodelledDevice ea)) ∧
      (s.cfg.area ea = .ram → s.cfg.area (ea + 1#16) = .unmapped → x = .fault (.unmappedAccess (ea + 1#16))) ∧
      (s.cfg.area ea = .ram → s.cfg.area (ea + 1#16) = .device → x = .fault (.unmodelledDevice (ea + 1#16)))) := by
  refine ⟨fun h => hx (wordChecks_of_odd h), fun heven h => hx (wordChecks_of_inCode heven h),
    fun heven hcode hcode' => ?_⟩
  rw [wordChecks_of_outside_code heven hcode hcode'] at hx
  have hlower {g : Fault} (h : areaFault s ea = some g) : x = .fault g := hx (by rw [h, firstFault_some])
  have hhigher {g : Fault} (hram : s.cfg.area ea = .ram) (h : areaFault s (ea + 1#16) = some g) : x = .fault g :=
    hx (by rw [areaFault_eq_none.2 hram, firstFault_none, h, firstFault_some])
  exact ⟨fun h => hlower (areaFault_of_unmapped h), fun h => hlower (areaFault_of_device h),
    fun hram h => hhigher hram (areaFault_of_unmapped h), fun hram h => hhigher hram (areaFault_of_device h)⟩
end

/-! ### The checks of a byte access -/

/-- Check 6 of R203 for the byte at an address. -/
def byteChecks (s : State) (ea : Word) : List (Option Fault) := [codeFault s ea [ea], areaFault s ea]

section
variable {s : State} {ea : Word}

theorem byteChecks_of_inCode (h : s.cfg.inCode ea = true) :
    firstFault (byteChecks s ea) = some (.codeRegionAccess ea) := by
  rw [byteChecks, codeFault_of_mem (List.mem_singleton_self ea) h, firstFault_some]

/-- Behind the check of the code region, the area decides. -/
theorem byteChecks_of_outside_code (hcode : s.cfg.inCode ea = false) :
    firstFault (byteChecks s ea) = areaFault s ea := by
  have hnone : codeFault s ea [ea] = none := codeFault_eq_none.2 (by simp [hcode])
  rw [byteChecks, hnone, firstFault_none]
  cases areaFault s ea <;> rfl

theorem byteChecks_of_dataByte (h : DataByte s ea) : firstFault (byteChecks s ea) = none :=
  (byteChecks_of_outside_code h.2).trans (areaFault_eq_none.2 h.1)

/-- An access that answers with the first check of `byteChecks` that fails: what it answers in each case. -/
theorem byteChecks_faults {x : Result} (hx : ∀ {f}, firstFault (byteChecks s ea) = some f → x = .fault f) :
    (s.cfg.inCode ea = true → x = .fault (.codeRegionAccess ea)) ∧
    (s.cfg.inCode ea = false →
      (s.cfg.area ea = .unmapped → x = .fault (.unmappedAccess ea)) ∧
      (s.cfg.area ea = .device → x = .fault (.unmodelledDevice ea))) := by
  refine ⟨fun h => hx (byteChecks_of_inCode h), fun hcode => ?_⟩
  rw [byteChecks_of_outside_code hcode] at hx
  exact ⟨fun h => hx (areaFault_of_unmapped h), fun h => hx (areaFault_of_device h)⟩
end

/-! ### Reads behind their checks -/

/-- The contents of the two cells at an address joined, the lower one read first (R203, check 7). -/
def joinedCells (s : State) (a : Word) : Except Fault Word :=
  (cellAt s a).bind fun lower => (cellAt s (a + 1#16)).map (s.cfg.byteOrder.join lower)

theorem memRead2_eq_afterChecks (s : State) (a : Word) :
    memRead2 s a = afterChecks [areaFault s a, areaFault s (a + 1#16)] (joinedCells s a) := by
  unfold memRead2 joinedCells
  cases cellAt s a with
  | error f => rfl
  | ok lower => cases cellAt s (a + 1#16) <;> rfl

theorem loadWord_eq_afterChecks (s : State) (ea : Word) :
    loadWord s ea = afterChecks (wordChecks s ea) (joinedCells s ea) := by
  rw [loadWord, memRead2_eq_afterChecks, afterChecks_afterChecks]
  rfl

theorem loadByte_eq_afterChecks (s : State) (ea : Word) :
    loadByte s ea = afterChecks (byteChecks s ea) (cellAt s ea) := by
  rw [loadByte, memRead1, afterChecks_afterChecks]
  rfl

section
variable {s : State} {a : Word}

theorem joinedCells_of_unwritten_lower (h : s.byteAt? a = none) :
    joinedCells s a = .error (.uninitialisedRead a) := by
  rw [joinedCells, cellAt_of_unwritten h]
  rfl

theorem joinedCells_of_unwritten_higher {lower : Byte} (hl : s.byteAt? a = some lower)
    (h : s.byteAt? (a + 1#16) = none) : joinedCells s a = .error (.uninitialisedRead (a + 1#16)) := by
  rw [joinedCells, cellAt_eq_ok.2 hl, cellAt_of_unwritten h]
  rfl
end

/-! ### Loads and stores that stop -/

section
variable {s : State} {a r d : Reg} {f : Fault}

theorem exec_ld_of_error (h : loadWord s (s.reg a) = .error f) : exec (.ld d a) s = .fault f :=
  congrArg (finishLoad d · s) h

theorem exec_ldb_of_error (h : loadByte s (s.reg a) = .error f) : exec (.ldb d a) s = .fault f := by
  show finishLoad d ((loadByte s (s.reg a)).map _) s = _
  rw [h]
  rfl

theorem exec_ld_of_check (h : firstFault (wordChecks s (s.reg a)) = some f) : exec (.ld d a) s = .fault f :=
  exec_ld_of_error ((loadWord_eq_afterChecks s _).trans (afterChecks_of_some _ h))

theorem exec_ldb_of_check (h : firstFault (byteChecks s (s.reg a)) = some f) : exec (.ldb d a) s = .fault f :=
  exec_ldb_of_error ((loadByte_eq_afterChecks s _).trans (afterChecks_of_some _ h))

theorem exec_st_of_check (h : firstFault (wordChecks s (s.reg a)) = some f) : exec (.st a r) s = .fault f :=
  congrArg finishStore (afterChecks_of_some _ h)

theorem exec_stb_of_check (h : firstFault (byteChecks s (s.reg a)) = some f) : exec (.stb a r) s = .fault f :=
  congrArg finishStore (afterChecks_of_some _ h)

/-- Behind checks that all hold, ld stops at a cell that nothing has written. -/
theorem exec_ld_of_cells (heven : EvenAddr (s.reg a)) (h : DataByte s (s.reg a)) (h' : DataByte s (s.reg a + 1#16))
    (hcells : joinedCells s (s.reg a) = .error f) : exec (.ld d a) s = .fault f :=
  exec_ld_of_error <| by
    rw [loadWord_eq_afterChecks, afterChecks_of_none _ (wordChecks_of_dataByte heven h h'), hcells]

theorem exec_ldb_of_unwritten (h : DataByte s (s.reg a)) (hcell : s.byteAt? (s.reg a) = none) :
    exec (.ldb d a) s = .fault (.uninitialisedRead (s.reg a)) :=
  exec_ldb_of_error <| by
    rw [loadByte_eq_afterChecks, afterChecks_of_none _ (byteChecks_of_dataByte h), cellAt_of_unwritten hcell]
end

/-! ### A loaded byte, in either reading -/

theorem toNat_widenByte_zero (b : Byte) : (widenByte .zero b).toNat = b.toNat :=
  BitVec.toNat_setWidth_of_le (by decide)

theorem toInt_widenByte_sign (b : Byte) : (widenByte .sign b).toInt = b.toInt :=
  BitVec.toInt_signExtend_of_le (by decide)

/-! ### The statements -/

/-- Settles O37: the first check that fails or the first cell that is unwritten, else the two cells joined. -/
theorem ldLoadsWordOrFaults : Obligations.LdLoadsWordOrFaults := by
  refine ⟨decode_ld, ?_⟩
  rintro d a s ea rfl
  obtain ⟨hodd, hcode, harea⟩ := wordChecks_faults (x := exec (.ld d a) s) exec_ld_of_check
  refine ⟨hodd, hcode, harea, fun heven h h' => ⟨fun hl => ?_, fun hl hh => ?_, fun lower higher hl hh => ?_⟩⟩
  · exact exec_ld_of_cells heven h h' (joinedCells_of_unwritten_lower hl)
  · obtain ⟨lower, hl⟩ := Option.isSome_iff_exists.1 hl
    exact exec_ld_of_cells heven h h' (joinedCells_of_unwritten_higher hl hh)
  · obtain ⟨t, hnext, hvalue, hframe⟩ := writeBack_spec_of_eq BitVec.toNat
      (ByteOrder.toNat_join s.cfg.byteOrder lower higher) d s
    exact ⟨t, (exec_ld_eq heven h h' hl hh).trans hnext, hframe, hvalue⟩

/-- Settles O38: the first check that fails or an unwritten cell, else the byte widened in either reading. -/
theorem ldbLoadsByteOrFaults : Obligations.LdbLoadsByteOrFaults := by
  refine ⟨decode_ldb, ?_⟩
  rintro d a s ea rfl
  obtain ⟨hcode, harea⟩ := byteChecks_faults (x := exec (.ldb d a) s) exec_ldb_of_check
  refine ⟨hcode, harea, fun h => ⟨exec_ldb_of_unwritten h, fun b hb => ?_⟩⟩
  obtain ⟨t, hnext, hvalue, hframe⟩ := writeBack_spec d (widenByte s.cfg.ldbExtend b) s
  refine ⟨t, (exec_ldb_eq h hb).trans hnext, hframe, ?_⟩
  rw [hvalue]
  cases s.cfg.ldbExtend with
  | zero => exact toNat_widenByte_zero b
  | sign => exact toInt_widenByte_sign b

/-- Settles O39: the first check that fails, else the two bytes of the value, which join to it again. -/
theorem stStoresWordOrFaults : Obligations.StStoresWordOrFaults := by
  refine ⟨decode_st, ?_⟩
  rintro a r s ea rfl
  obtain ⟨hodd, hcode, harea⟩ := wordChecks_faults (x := exec (.st a r) s) exec_st_of_check
  refine ⟨hodd, hcode, harea, fun heven h h' => ?_⟩
  have hnext := exec_st_eq (r := r) heven h h'
  refine ⟨_, s.cfg.byteOrder.lower (s.reg r), s.cfg.byteOrder.higher (s.reg r), hnext,
    ⟨fun _ _ => rfl, rfl, rfl, exec_bytesKept hnext, rfl⟩, ?_, ?_, ?_⟩
  · simp [State.setByte_byteAt?]
  · simp [State.setByte_byteAt?]
  · exact (congrArg BitVec.toNat (ByteOrder.join_lower_higher s.cfg.byteOrder (s.reg r))).symm.trans
      (ByteOrder.toNat_join ..)

/-- Settles O40: the first check that fails, else the low byte of the register. -/
theorem stbStoresLowByteOrFaults : Obligations.StbStoresLowByteOrFaults := by
  refine ⟨decode_stb, ?_⟩
  rintro a r s ea rfl
  obtain ⟨hcode, harea⟩ := byteChecks_faults (x := exec (.stb a r) s) exec_stb_of_check
  refine ⟨hcode, harea, fun h => ?_⟩
  have hnext := exec_stb_eq (r := r) h
  refine ⟨_, lowByte (s.reg r), hnext, ⟨fun _ _ => rfl, rfl, rfl, exec_bytesKept hnext, rfl⟩, ?_, ?_⟩
  · simp [State.setByte_byteAt?]
  · exact BitVec.extractLsb'_toNat 0 8 (s.reg r)

end Sys2Proof.Machine
end

section
/-! SUPPORT. The faults of a fetch (60_exceptions.md R203, checks 1 and 2): each check of `fetchWord` that fails, the
ways in which the read of one byte fails, and the statement made of them. -/

namespace Sys2Proof.Machine

/-! ### The checks before the bytes are read -/

section
variable {s : State}

theorem fetchAlignmentFault_eq_none : fetchAlignmentFault s = none ↔ EvenAddr s.pc := by
  simp [fetchAlignmentFault, EvenAddr]

theorem fetchCodeFault_of_outside (h : s.cfg.mayFetch s.pc = false ∨ s.cfg.mayFetch (s.pc + 1#16) = false) :
    fetchCodeFault s = some (.fetchOutsideCode s.pc) :=
  if_neg (by simpa [imp_iff_not_or] using h)

theorem fetchCodeFault_of_mayFetch (h : s.cfg.mayFetch s.pc = true) (h' : s.cfg.mayFetch (s.pc + 1#16) = true) :
    fetchCodeFault s = none :=
  if_pos (by simp [h, h'])

/-- At an even pc outside `cfg.CODE` the fetch stops before it reads a byte. -/
theorem fetchWord_of_outside_code (heven : EvenAddr s.pc)
    (h : s.cfg.mayFetch s.pc = false ∨ s.cfg.mayFetch (s.pc + 1#16) = false) :
    fetchWord s = .error (.fetchOutsideCode s.pc) :=
  afterChecks_of_some _ <| by
    rw [fetchAlignmentFault_eq_none.2 heven, firstFault_none, fetchCodeFault_of_outside h, firstFault_some]

/-- Behind the checks of alignment and code region, the two bytes decide. -/
theorem fetchWord_eq_fetchBytes (heven : EvenAddr s.pc) (h : s.cfg.mayFetch s.pc = true)
    (h' : s.cfg.mayFetch (s.pc + 1#16) = true) : fetchWord s = fetchBytes s s.pc :=
  afterChecks_of_none _ <| by
    rw [fetchAlignmentFault_eq_none.2 heven, firstFault_none, fetchCodeFault_of_mayFetch h h', firstFault_none,
      firstFault_nil]
end

/-! ### The read of one byte -/

section
variable {s : State} {a : Word} {f : Fault}

theorem memRead1_of_areaFault (h : areaFault s a = some f) : memRead1 s a = .error f :=
  afterChecks_of_some _ (by rw [h, firstFault_some])

theorem memRead1_of_unwritten (hram : s.cfg.area a = .ram) (h : s.byteAt? a = none) :
    memRead1 s a = .error (.uninitialisedRead a) := by
  rw [memRead1, areaFault_eq_none.2 hram, afterChecks_of_none _ (firstFault_none _), cellAt_of_unwritten h]

/-- An access that answers with the fault of a byte's read: what it answers in each case. -/
theorem memRead1_faults {x : Result} (hx : ∀ {f}, memRead1 s a = .error f → x = .fault f) :
    (s.cfg.area a = .unmapped → x = .fault (.unmappedAccess a)) ∧
    (s.cfg.area a = .device → x = .fault (.unmodelledDevice a)) ∧
    (s.cfg.area a = .ram → s.byteAt? a = none → x = .fault (.uninitialisedRead a)) :=
  ⟨fun h => hx (memRead1_of_areaFault (areaFault_of_unmapped h)),
    fun h => hx (memRead1_of_areaFault (areaFault_of_device h)),
    fun hram h => hx (memRead1_of_unwritten hram h)⟩
end

/-! ### The statement -/

/-- Settles O8: a check that fails stops the step; behind the checks the lower byte's read stops it, and once that byte
is read, the higher byte's. -/
theorem fetchFaultsInOrder : Obligations.FetchFaultsInOrder := by
  refine fun s => ⟨fun hodd => ?_, fun heven h => ?_, fun heven hmay hmay' => ?_⟩
  · exact step_of_fetchWord_error (fetchWord_of_odd_pc (by simpa [EvenAddr] using hodd))
  · exact step_of_fetchWord_error (fetchWord_of_outside_code heven h)
  · have hstep {f : Fault} (h : fetchBytes s s.pc = .error f) : step s = .fault f :=
      step_of_fetchWord_error ((fetchWord_eq_fetchBytes heven hmay hmay').trans h)
    obtain ⟨hunmapped, hdevice, hunwritten⟩ :=
      memRead1_faults (s := s) (a := s.pc) fun h => hstep (fetchBytes_eq_error_lower h)
    refine ⟨hunmapped, hdevice, hunwritten, fun hram hwritten => ?_⟩
    obtain ⟨lower, hlower⟩ := Option.isSome_iff_exists.1 hwritten
    have hread : memRead1 s s.pc = .ok lower := memRead1_eq_ok.2 ⟨hram, hlower⟩
    exact memRead1_faults fun h => hstep (fetchBytes_eq_error_higher hread h)

end Sys2Proof.Machine
end

section
/-! SUPPORT. Final states (70_reset_and_hazards.md R228): when each of the five transfers leaves its state as it is, why
no other instruction does, and the two statements about self-loops. -/

namespace Sys2Proof.Machine

/-! ### Instructions that leave a state as it is -/

section
variable {s : State}

theorem add_two_ne_self (a : Word) : a + 2#16 ≠ a := by simp

/-- An instruction that leaves the state as it is transfers control: every other one advances `pc` (R15). -/
theorem transfersControl_of_exec_self {i : Instr} (h : exec i s = .next s) : transfersControl s i = true := by
  by_contra hn
  exact add_two_ne_self s.pc (exec_pc_of_not_transfersControl (by simpa using hn) h).symm

/-- A branch leaves the state as it is exactly when it is taken to its own address. -/
theorem branchIf_eq_self {taken : Bool} {target : Word} :
    branchIf taken target s = .next s ↔ taken = true ∧ target = s.pc := by
  constructor
  · intro h
    obtain ⟨t, ht, hpc, -⟩ := branchIf_spec taken target s
    obtain rfl : t = s := by simpa [h] using ht.symm
    cases taken with
    | true => exact ⟨rfl, hpc.symm⟩
    | false => exact absurd hpc.symm (add_two_ne_self t.pc)
  · rintro ⟨rfl, rfl⟩
    rfl

theorem exec_brez_eq_self {r a : Reg} : exec (.brez r a) s = .next s ↔ s.reg r = 0#16 ∧ s.reg a = s.pc := by
  rw [exec_brez, branchIf_eq_self, beq_iff_eq]

theorem exec_brnez_eq_self {r a : Reg} : exec (.brnez r a) s = .next s ↔ s.reg r ≠ 0#16 ∧ s.reg a = s.pc := by
  rw [exec_brnez, branchIf_eq_self, bne_iff_ne]

theorem exec_brezi_eq_self {r : Reg} {imm7 : BitVec 7} :
    exec (.brezi r imm7) s = .next s ↔ s.reg r = 0#16 ∧ s.cfg.brImmTarget s.pc imm7 = s.pc := by
  rw [exec_brezi, branchIf_eq_self, beq_iff_eq]

theorem exec_brnezi_eq_self {r : Reg} {imm7 : BitVec 7} :
    exec (.brnezi r imm7) s = .next s ↔ s.reg r ≠ 0#16 ∧ s.cfg.brImmTarget s.pc imm7 = s.pc := by
  rw [exec_brnezi, branchIf_eq_self, bne_iff_ne]

theorem setReg_eq_self {d : Reg} {v : Word} (h : s.reg d = v) : s.setReg d v = s :=
  State.ext_of rfl (fun r => by rw [State.setReg_reg]; split_ifs with hr <;> simp [hr, h]) rfl rfl rfl

/-- A jump to its own address changes only the link register, so that one must hold the link already. -/
theorem exec_jmpl_eq_self {a : Reg} :
    exec (.jmpl a) s = .next s ↔ s.reg a = s.pc ∧ s.reg s.cfg.linkReg = s.pc + 2#16 := by
  rw [exec_jmpl, Host.Outcome.next.injEq]
  constructor
  · intro h
    refine ⟨congrArg State.pc h, ?_⟩
    calc s.reg s.cfg.linkReg
      _ = ((s.setReg s.cfg.linkReg s.nextPc).setPc (s.reg a)).reg s.cfg.linkReg := by rw [h]
      _ = s.pc + 2#16 := State.setReg_reg_self ..
  · rintro ⟨hpc, hlink⟩
    rw [setReg_eq_self (v := s.nextPc) hlink, hpc]
    rfl
end

/-! ### Final states -/

/-- A state is final exactly at the self-loops of R228. -/
theorem final_iff_selfLoop {s : State} : Final s ↔ SelfLoop s := by
  rw [Final, StepsTo, step_eq_next]
  constructor
  · rintro ⟨i, hi, h⟩
    rcases exec_pc_of_transfersControl (transfersControl_of_exec_self h) h with
      ⟨a, rfl, -⟩ | ⟨r, a, rfl | rfl, -⟩ | ⟨r, imm7, rfl | rfl, -⟩
    · exact .inr (.inr (.inr (.inr ⟨a, hi, exec_jmpl_eq_self.1 h⟩)))
    · exact .inr (.inr (.inl ⟨r, a, hi, exec_brez_eq_self.1 h⟩))
    · exact .inr (.inr (.inr (.inl ⟨r, a, hi, exec_brnez_eq_self.1 h⟩)))
    · exact .inl ⟨r, imm7, hi, exec_brezi_eq_self.1 h⟩
    · exact .inr (.inl ⟨r, imm7, hi, exec_brnezi_eq_self.1 h⟩)
  · rintro (⟨r, imm7, hi, h⟩ | ⟨r, imm7, hi, h⟩ | ⟨r, a, hi, h⟩ | ⟨r, a, hi, h⟩ | ⟨a, hi, h⟩)
    · exact ⟨_, hi, exec_brezi_eq_self.2 h⟩
    · exact ⟨_, hi, exec_brnezi_eq_self.2 h⟩
    · exact ⟨_, hi, exec_brez_eq_self.2 h⟩
    · exact ⟨_, hi, exec_brnez_eq_self.2 h⟩
    · exact ⟨_, hi, exec_jmpl_eq_self.2 h⟩

/-- The step is a function, so a final state reaches itself alone. -/
theorem Final.eq_of_reaches {s t : State} (hs : Final s) (h : Reaches s t) : t = s := by
  induction h with
  | refl => rfl
  | tail _ hstep ih =>
    subst ih
    exact Host.Outcome.next.inj (hstep.symm.trans hs)

theorem Final.safe {s : State} (hs : Final s) : Safe s := fun _ h => ⟨s, hs.eq_of_reaches h ▸ hs⟩

/-! ### The statements -/

/-- Settles O16: only a transfer can leave `pc` as it is, and each of the five says when it leaves the rest. -/
theorem finalStatesAreSelfLoops : Obligations.FinalStatesAreSelfLoops := fun _ => final_iff_selfLoop

/-- Settles O17: a self-loop is a final state. -/
theorem selfLoopIsSafeForever : Obligations.SelfLoopIsSafeForever := fun _ h =>
  have hfinal := final_iff_selfLoop.2 h
  ⟨fun _ => hfinal.eq_of_reaches, hfinal.safe⟩

end Sys2Proof.Machine
end

section
/-! SUPPORT. Placing an instruction word (70_reset_and_hazards.md R229; log 15): `fetchableAt` makes the two bytes at an
even address fetchable, so the fetch reads the placed word, and the statement made of it. -/

namespace Sys2Proof.Machine

/-! ### The address -/

theorem evenAddress_even (a : Word) : EvenAddr (evenAddress a) := by
  simp [EvenAddr, evenAddress]

theorem evenAddress_of_even {a : Word} (h : EvenAddr a) : evenAddress a = a := by
  rw [EvenAddr] at h
  refine BitVec.eq_of_getLsbD_eq fun k hk => ?_
  interval_cases k <;> simp_all [evenAddress]

/-- The two bytes at an even address lie in the stretch of two that begins there: no wrap parts them. -/
theorem holds_pair {a k : Word} (ha : EvenAddr a) (hk : k = a ∨ k = a + 1#16) :
    Span.holds { base := a.toNat, size := 2 } k = true := by
  have hlt := a.isLt
  rw [evenAddr_iff_toNat_mod_two] at ha
  have hsucc : (a + 1#16).toNat = a.toNat + 1 := by
    rw [BitVec.toNat_add, BitVec.toNat_ofNat]
    omega
  refine decide_eq_true (show a.toNat ≤ k.toNat ∧ k.toNat < a.toNat + 2 from ?_)
  rcases hk with rfl | rfl <;> omega

/-! ### The configuration that allows the fetch -/

section
variable {cfg : Config} {a k : Word}

theorem fetchableAt_area (ha : EvenAddr a) (hk : k = a ∨ k = a + 1#16) : (fetchableAt cfg a).area k = .ram := by
  by_cases h : cfg.area a = .ram ∧ cfg.area (a + 1#16) = .ram
  · have hmap : (fetchableAt cfg a).memMap = cfg.memMap := if_pos h
    rw [Config.area, hmap]
    rcases hk with rfl | rfl
    · exact h.1
    · exact h.2
  · have hmap : (fetchableAt cfg a).memMap = ⟨⟨a.toNat, 2⟩, .ram⟩ :: cfg.memMap := if_neg h
    rw [Config.area, hmap]
    exact if_pos (holds_pair ha hk)

theorem fetchableAt_mayFetch (ha : EvenAddr a) (hk : k = a ∨ k = a + 1#16) :
    (fetchableAt cfg a).mayFetch k = true := by
  by_cases h : cfg.mayFetch a = true ∧ cfg.mayFetch (a + 1#16) = true
  · have hcode : (fetchableAt cfg a).code = cfg.code := if_pos h
    rw [Config.mayFetch, Config.inCode, hcode]
    rcases hk with rfl | rfl
    · exact h.1
    · exact h.2
  · have hcode : (fetchableAt cfg a).code = cfg.code.map (⟨a.toNat, 2⟩ :: ·) := if_neg h
    rw [Config.mayFetch, Config.inCode, hcode]
    cases cfg.code <;> simp [holds_pair ha hk]
end

/-! ### The state with the word placed -/

section
variable (s : State) (w : Word)

@[simp] theorem placeWord_cfg : (placeWord s w).cfg = fetchableAt s.cfg (evenAddress s.pc) := rfl
@[simp] theorem placeWord_regs : (placeWord s w).regs = s.regs := rfl
@[simp] theorem placeWord_pc : (placeWord s w).pc = evenAddress s.pc := rfl
@[simp] theorem placeWord_c : (placeWord s w).c = s.c := rfl

theorem placeWord_byteAt?_lower :
    (placeWord s w).byteAt? (evenAddress s.pc) = some (s.cfg.byteOrder.lower w) := by
  simp [placeWord, fetchableAt, State.setByte_byteAt?]

theorem placeWord_byteAt?_higher :
    (placeWord s w).byteAt? (evenAddress s.pc + 1#16) = some (s.cfg.byteOrder.higher w) := by
  simp [placeWord, fetchableAt, State.setByte_byteAt?]

/-- The fetch reads the placed word. -/
theorem fetchWord_placeWord : fetchWord (placeWord s w) = .ok w := by
  have heven := evenAddress_even s.pc
  rw [fetchWord_eq_ok, memRead2_eq_ok, placeWord_cfg, placeWord_pc]
  exact ⟨heven, fetchableAt_mayFetch heven (.inl rfl), fetchableAt_mayFetch heven (.inr rfl),
    fetchableAt_area heven (.inl rfl), fetchableAt_area heven (.inr rfl), _, _, placeWord_byteAt?_lower s w,
    placeWord_byteAt?_higher s w, ByteOrder.join_lower_higher _ _⟩

theorem withFetchWord_toNat : s.withFetchWord 16 w.toNat = placeWord s w := by
  rw [State.withFetchWord, Nat.mod_eq_of_lt w.isLt, BitVec.ofNat_toNat, BitVec.setWidth_eq]
end

/-! ### The statement -/

/-- Settles O18: the fetch reads the placed word, and the step follows what it decodes to. -/
theorem placedWordIsExecuted : Obligations.PlacedWordIsExecuted := by
  intro s w
  rw [withFetchWord_toNat]
  refine ⟨?_, placeWord_regs s w, placeWord_c s w, evenAddress_of_even⟩
  have hword := fetchWord_placeWord s w
  cases hw : decode w with
  | ok i => exact step_of_fetches (fetchInstr_eq_ok.2 ⟨w, hword, hw⟩)
  | error e => exact step_of_decode_error hword hw

end Sys2Proof.Machine
end
